-- ==== Sys2Proof/Word.lean ====
section
/-! DEFINITION. The word of the BFU (spec/10_state.md R28): 64 bits, no identity beyond the bit pattern.
Bit `i` has weight `2^i` (00_scope.md R13), which is how `BitVec` numbers bits; `x[i]` of the spec is `x.getLsbD i`. -/

namespace Sys2Proof

/-- A Word: any 64-bit pattern, none of them illegal (R28). -/
abbrev Word := BitVec 64

/-- The 18-bit control word `lsb[6:0] ++ width[6:0] ++ op[3:0]` that the opcode table is written over (R62). -/
abbrev Ctl := BitVec 18

end Sys2Proof
end

