-- ==== Sys2Proof/Config.lean ====
section
/-! DEFINITION. What the spec fixes once for the block. Every parameter has one value and none is an argument of the
model (spec/00_scope.md R12), so nothing here is opaque: the spec leaves no free value. -/

namespace Sys2Proof.Config

/-- The word capacity `CAP = 64` (R10): a constant, not a parameter. -/
@[simp] abbrev cap : Nat := 64

/-- How many values a 7-bit port (`width`, `lsb`) can carry: 0 to 127 (R61). -/
@[simp] abbrev narrowPortLimit : Nat := 128

end Sys2Proof.Config
end

