-- ==== Sys2Proof/Syntax.lean ====
section
/-! DEFINITION. The instructions of the BFU: one constructor for each of the sixteen rows of the opcode table
(spec/30_encoding.md R68), the nine operations and the seven reserved codes. An instruction carries the operands that
travel in the control word `ctl` and that its operation reads; the `word` and `value` operands travel on ports of their
own and are read from the state. A port an operation ignores is not written in its syntax (R69, R73). -/

namespace Sys2Proof

/-- One constructor a row of the opcode table; `width` and `lsb` are the naturals the ports carry, taken as they stand
(R63), so that the functions of `41_extremal_values.md`, which are defined on all naturals, apply to them directly. -/
inductive Instr where
  | fitsSigned (width : Nat)
  | fitsUnsigned (width : Nat)
  | unsignedMax (width : Nat)
  | signedMax (width : Nat)
  | signedMin (width : Nat)
  | getUnsigned (width lsb : Nat)
  | getSigned (width lsb : Nat)
  | setUnsigned (width lsb : Nat)
  | setSigned (width lsb : Nat)
  | reserved9
  | reserved10
  | reserved11
  | reserved12
  | reserved13
  | reserved14
  | reserved15
  deriving DecidableEq, Repr

/-- The five request ports, by name (R61): what the "reads" column of the table for R68 lists. -/
inductive Port where
  | op | width | lsb | word | value
  deriving DecidableEq, Repr

end Sys2Proof
end

