-- ==== Sys2Proof/WellFormed.lean ====
section
/-! DEFINITION. Which instructions can be presented to the block. The `width` and `lsb` ports are 7 bits wide (spec/30_encoding.md
R61) and a host must not truncate a larger value onto them (R63, 60_exceptions.md R186 (d)): an instruction whose
operand does not fit its port is ill-formed. A width or lsb that fits its port but is outside an operation's domain is
NOT ill-formed: such a request has a defined response (R71). -/

namespace Sys2Proof

/-- The operand fits a 7-bit port: 0 to 127. -/
def fitsNarrowPort (n : Nat) : Bool := decide (n < Config.narrowPortLimit)

/-- Every operand of the instruction that travels in the control word fits its port. -/
def Instr.wellFormed : Instr → Bool
  | .fitsSigned width => fitsNarrowPort width
  | .fitsUnsigned width => fitsNarrowPort width
  | .unsignedMax width => fitsNarrowPort width
  | .signedMax width => fitsNarrowPort width
  | .signedMin width => fitsNarrowPort width
  | .getUnsigned width lsb => fitsNarrowPort width && fitsNarrowPort lsb
  | .getSigned width lsb => fitsNarrowPort width && fitsNarrowPort lsb
  | .setUnsigned width lsb => fitsNarrowPort width && fitsNarrowPort lsb
  | .setSigned width lsb => fitsNarrowPort width && fitsNarrowPort lsb
  | .reserved9 => true
  | .reserved10 => true
  | .reserved11 => true
  | .reserved12 => true
  | .reserved13 => true
  | .reserved14 => true
  | .reserved15 => true

end Sys2Proof
end

