-- ==== Sys2Proof/Decode.lean ====
section
/-! DEFINITION. From control words to instructions and back (spec/30_encoding.md R62, R68, R70; spec/opcode_table.json).
All three narrow fields are pulled apart here, once. -/

namespace Sys2Proof

/-! ### The fields of `ctl` (R62) -/

/-- `ctl[3:0]`, the operation select. -/
def ctlOp (c : Ctl) : BitVec 4 := c.extractLsb' 0 4

/-- `ctl[10:4]`, the field width. -/
def ctlWidth (c : Ctl) : BitVec 7 := c.extractLsb' 4 7

/-- `ctl[17:11]`, the offset of the field's least significant bit. -/
def ctlLsb (c : Ctl) : BitVec 7 := c.extractLsb' 11 7

/-- `ctl = lsb ++ width ++ op`. -/
def assembleCtl (op : BitVec 4) (width lsb : BitVec 7) : Ctl := lsb ++ width ++ op

/-! ### The decoder -/

/-- The instruction an operation code selects (R68, R70): all sixteen 4-bit codes are listed, the last arm being 15, the
only value left. `width` and `lsb` are read as unsigned and dropped where the operation ignores them (R69). -/
def decodeFields (op : BitVec 4) (width lsb : BitVec 7) : Instr :=
  match op.toNat with
  | 0 => .fitsSigned width.toNat
  | 1 => .fitsUnsigned width.toNat
  | 2 => .unsignedMax width.toNat
  | 3 => .signedMax width.toNat
  | 4 => .signedMin width.toNat
  | 5 => .getUnsigned width.toNat lsb.toNat
  | 6 => .getSigned width.toNat lsb.toNat
  | 7 => .setUnsigned width.toNat lsb.toNat
  | 8 => .setSigned width.toNat lsb.toNat
  | 9 => .reserved9
  | 10 => .reserved10
  | 11 => .reserved11
  | 12 => .reserved12
  | 13 => .reserved13
  | 14 => .reserved14
  | _ => .reserved15

/-- The instruction a control word stands for: total, since each of the 2^18 control words has a row of the table. -/
def decode (c : Ctl) : Instr := decodeFields (ctlOp c) (ctlWidth c) (ctlLsb c)

/-- Why a number is no control word. -/
inductive DecodeError where
  /-- A bit above `ctl[17]` is set: the request format has no such bit (R62, R72). -/
  | beyondCtl
  deriving DecidableEq, Repr

/-- Decode a word given as a number, bit 0 its least significant: total, refusing by name what is no control word. -/
def decodeWord (w : Nat) : Except DecodeError Instr :=
  if w < 2 ^ 18 then .ok (decode (BitVec.ofNat 18 w)) else .error .beyondCtl

/-- The host's entry: `w` numbered as the opcode table numbers it, in a container of `nbits` bits. -/
def decodeTableWord (nbits w : Nat) : Option Instr :=
  match decodeWord (w % 2 ^ nbits) with
  | .ok i => some i
  | .error _ => none

/-! ### The encoder -/

/-- The operation code of each constructor (table for R68). -/
def opcode : Instr → BitVec 4
  | .fitsSigned _ => 0
  | .fitsUnsigned _ => 1
  | .unsignedMax _ => 2
  | .signedMax _ => 3
  | .signedMin _ => 4
  | .getUnsigned _ _ => 5
  | .getSigned _ _ => 6
  | .setUnsigned _ _ => 7
  | .setSigned _ _ => 8
  | .reserved9 => 9
  | .reserved10 => 10
  | .reserved11 => 11
  | .reserved12 => 12
  | .reserved13 => 13
  | .reserved14 => 14
  | .reserved15 => 15

/-- The `width` operand of an instruction that has one. -/
def widthOperand : Instr → Option Nat
  | .fitsSigned width => some width
  | .fitsUnsigned width => some width
  | .unsignedMax width => some width
  | .signedMax width => some width
  | .signedMin width => some width
  | .getUnsigned width _ => some width
  | .getSigned width _ => some width
  | .setUnsigned width _ => some width
  | .setSigned width _ => some width
  | .reserved9 => none
  | .reserved10 => none
  | .reserved11 => none
  | .reserved12 => none
  | .reserved13 => none
  | .reserved14 => none
  | .reserved15 => none

/-- The `lsb` operand of an instruction that has one. -/
def lsbOperand : Instr → Option Nat
  | .fitsSigned _ => none
  | .fitsUnsigned _ => none
  | .unsignedMax _ => none
  | .signedMax _ => none
  | .signedMin _ => none
  | .getUnsigned _ lsb => some lsb
  | .getSigned _ lsb => some lsb
  | .setUnsigned _ lsb => some lsb
  | .setSigned _ lsb => some lsb
  | .reserved9 => none
  | .reserved10 => none
  | .reserved11 => none
  | .reserved12 => none
  | .reserved13 => none
  | .reserved14 => none
  | .reserved15 => none

/-- What an operand puts on its 7-bit port; an operand the operation does not have is shown as 0 (R73). -/
def portBits (operand : Option Nat) : BitVec 7 := BitVec.ofNat 7 (operand.getD 0)

/-- The control word of an instruction; none for an ill-formed one, whose operand a host may not truncate onto the port
(R63). -/
def encode (i : Instr) : Option Ctl :=
  if i.wellFormed then some (assembleCtl (opcode i) (portBits (widthOperand i)) (portBits (lsbOperand i))) else none

/-! ### The opcode table as the spec prints it -/

/-- A row of spec/opcode_table.json. -/
structure OpRow where
  mnemonic : String
  pattern : Ctl
  mask : Ctl
  reads : List Port
  deriving DecidableEq, Repr

/-- The nine operations and the seven reserved codes (table for R68; "reads" as there, the `op` port apart). -/
def opTable : List OpRow :=
  [ ⟨"fits_signed", 0x00000, 0x0000F, [.value, .width]⟩,
    ⟨"fits_unsigned", 0x00001, 0x0000F, [.value, .width]⟩,
    ⟨"unsigned_max", 0x00002, 0x0000F, [.width]⟩,
    ⟨"signed_max", 0x00003, 0x0000F, [.width]⟩,
    ⟨"signed_min", 0x00004, 0x0000F, [.width]⟩,
    ⟨"get_unsigned", 0x00005, 0x0000F, [.word, .width, .lsb]⟩,
    ⟨"get_signed", 0x00006, 0x0000F, [.word, .width, .lsb]⟩,
    ⟨"set_unsigned", 0x00007, 0x0000F, [.word, .width, .lsb, .value]⟩,
    ⟨"set_signed", 0x00008, 0x0000F, [.word, .width, .lsb, .value]⟩ ] ++
  [ ⟨"reserved_9", 0x00009, 0x0000F, []⟩,
    ⟨"reserved_10", 0x0000A, 0x0000F, []⟩,
    ⟨"reserved_11", 0x0000B, 0x0000F, []⟩,
    ⟨"reserved_12", 0x0000C, 0x0000F, []⟩,
    ⟨"reserved_13", 0x0000D, 0x0000F, []⟩,
    ⟨"reserved_14", 0x0000E, 0x0000F, []⟩,
    ⟨"reserved_15", 0x0000F, 0x0000F, []⟩ ]

/-- The row claims the control word. -/
def OpRow.accepts (r : OpRow) (c : Ctl) : Bool := c &&& r.mask == r.pattern

/-- The mnemonic of each constructor, as the table spells it. -/
def mnemonic : Instr → String
  | .fitsSigned _ => "fits_signed"
  | .fitsUnsigned _ => "fits_unsigned"
  | .unsignedMax _ => "unsigned_max"
  | .signedMax _ => "signed_max"
  | .signedMin _ => "signed_min"
  | .getUnsigned _ _ => "get_unsigned"
  | .getSigned _ _ => "get_signed"
  | .setUnsigned _ _ => "set_unsigned"
  | .setSigned _ _ => "set_signed"
  | .reserved9 => "reserved_9"
  | .reserved10 => "reserved_10"
  | .reserved11 => "reserved_11"
  | .reserved12 => "reserved_12"
  | .reserved13 => "reserved_13"
  | .reserved14 => "reserved_14"
  | .reserved15 => "reserved_15"

end Sys2Proof
end

