-- ==== Sys2Proof/Machine/State.lean ====
section
/-! DEFINITION. The machine's state and the reasons a run can stop. The BFU keeps nothing between requests
(spec/10_state.md R20 to R27): no register, program counter, flag, control register, memory or hidden state. What varies
is what stands on its ports: the five request ports the host drives (30_encoding.md R61) and the three response ports the
block drives (R64). `State` holds those eight ports, each at its width, so that one step (a request answered, 70_reset_and_hazards.md
R202) has somewhere to read the request from and somewhere to put the response. -/

namespace Sys2Proof.Machine

/-- The causes of the fatal class (30_encoding.md R65, 60_exceptions.md R175). -/
inductive FatalCause where
  /-- The field does not lie within the word, or a fit is asked for a width above 64 (R180, R181). -/
  | capacity
  /-- `width == 0` where an operation is undefined at it (R179). -/
  | widthZero
  /-- An `op` code that selects no operation (R182). -/
  | illegalOp
  deriving DecidableEq, Repr

/-- A response as one of its three shapes (R64). There is no fourth: status code 3 is never produced (R65). -/
inductive Response where
  | ok (result : Word)
  | overflow
  | fatal (cause : FatalCause)
  deriving DecidableEq, Repr

/-- One presentation of the five request ports (R61). -/
structure Request where
  op : BitVec 4
  width : BitVec 7
  lsb : BitVec 7
  word : Word
  value : Word
  deriving DecidableEq, Repr

/-- The eight ports of the block. The request ports are the host's to drive; a step writes the response ports only. -/
structure State where
  op : BitVec 4
  width : BitVec 7
  lsb : BitVec 7
  word : Word
  value : Word
  status : BitVec 2
  cause : BitVec 2
  result : Word
  deriving DecidableEq, Repr

/-- Right after reset. The block has nothing to reset (R32, R200); the request ports carry whatever the host drives, here
all zeros (DESIGN CHOICE, notes/assumptions/1.md), and the response ports carry the block's answer to that request, as
they do at any time (R33, R200): `fits_signed` at width 0 is FATAL, WIDTH_ZERO, result 0 (DEDUCED, same entry). -/
def State.reset : State where
  op := 0
  width := 0
  lsb := 0
  word := 0
  value := 0
  status := 2
  cause := 2
  result := 0

/-- Faults. -/
inductive Fault where
  /-- A host's run met a FATAL response and has failed (60_exceptions.md R186 (b), 70_reset_and_hazards.md R207). Raised by
  the host layer `hostStep` only, never by `exec` or `step`: the block itself answers a contract violation with a
  response and goes on (R183). Safe: it stops a host program where the spec says it stops. -/
  | contractViolation (cause : FatalCause)
  deriving DecidableEq, Repr

/-- Refusals. -/
inductive Refusal where
  /-- An instruction with no meaning in the model. Raised by no arm: every row of the opcode table has its meaning. Safe. -/
  | notModelled (mnemonic : String)
  /-- A script step names the result of a step that bound none (notes/assumptions/4.md). Raised by `hostStep` only. Safe: the
  notation gives such a step no request. -/
  | unboundResult (step : Nat)
  /-- The response ports carry a code the block never produces (R65). Raised by `hostStep` only, and never reached from a
  step of the block. Safe. -/
  | brokenResponse
  /-- A request was sent to an instance that the system does not have (20_memory.md R51). Raised by `serveInstance` only. Safe. -/
  | noSuchInstance (index : Nat)
  deriving DecidableEq, Repr

end Sys2Proof.Machine
end

