-- ==== Sys2Proof/Machine/Ops.lean ====
section
/-! DEFINITION. The primitives of spec/00_scope.md R14 to R16, the extremal functions and masks of 41_extremal_values.md
R100 to R103 and R107, and the operations over the ports. Every mask and extremal value is defined as a number with its
arm at 64 written out, never by a shift by the word size (R108). -/

namespace Sys2Proof.Machine

/-! ### Value domains (R14) -/

/-- `s64(x)`: the bits of `x` read as a two's-complement integer. -/
def s64 (x : Word) : Int := if x.getLsbD 63 then (x.toNat : Int) - 2 ^ 64 else (x.toNat : Int)

/-- `enc64(n) = n mod 2^64`. -/
def enc64 (n : Int) : Word := BitVec.ofInt 64 n

/-! ### Shifts, total in the amount (R15) -/

/-- Left shift; 0 at 64 and more. -/
def shl64 (x : Word) (k : Nat) : Word := if k ≤ 63 then BitVec.ofNat 64 (x.toNat * 2 ^ k) else 0

/-- Logical right shift; 0 at 64 and more. -/
def lshr64 (x : Word) (k : Nat) : Word := if k ≤ 63 then BitVec.ofNat 64 (x.toNat / 2 ^ k) else 0

/-- Arithmetic right shift, rounding down; at 64 and more, 64 copies of the sign bit. -/
def ashr64 (x : Word) (k : Nat) : Word :=
  if k ≤ 63 then enc64 (s64 x / 2 ^ k) else if x.getLsbD 63 then 0xFFFFFFFFFFFFFFFF else 0

/-! ### Masks and extremal values -/

/-- `ones(k) = 2^k - 1` as a 64-bit value, for `0 <= k <= 64` (R16). -/
def ones (k : Nat) : Word := BitVec.ofNat 64 (2 ^ k - 1)

/-- `umax(w)`, the largest unsigned value of `w` bits (R100). -/
def umax (w : Nat) : Nat := if w ≤ 63 then 2 ^ w - 1 else 2 ^ 64 - 1

/-- `smax(w)`, the largest signed value of `w` bits; -1 at 0 (R101). -/
def smax (w : Nat) : Int := if w = 0 then -1 else if w ≤ 63 then 2 ^ (w - 1) - 1 else 2 ^ 63 - 1

/-- `smin(w)`, the smallest signed value of `w` bits; 0 at 0 (R102). -/
def smin (w : Nat) : Int := if w = 0 then 0 else if w ≤ 63 then -2 ^ (w - 1) else -2 ^ 63

/-- `umax(w)` as a bit pattern: the low `w` bits set (R100). -/
def umaxBits (w : Nat) : Word := BitVec.ofNat 64 (umax w)

/-- `sextw(v, w)`: `v` sign-extended from `w` bits, `1 <= w <= 64`, in the two-shift form (R103). -/
def sextw (v : Word) (w : Nat) : Word := ashr64 (shl64 v (Config.cap - w)) (Config.cap - w)

/-- The sign-extension mask: bits 63 down to `w` (R103). -/
def signmask (w : Nat) : Word := ~~~ ones w

/-- Sign extension in the mask form (R103). -/
def sextwMask (v : Word) (w : Nat) : Word :=
  if v.getLsbD (w - 1) then (v &&& ones w) ||| signmask w else v &&& ones w

/-- The field mask: bits `lsb + width - 1` down to `lsb` (R107). -/
def fieldmask (width lsb : Nat) : Word := shl64 (umaxBits width) lsb

/-! ### The ports -/

/-- The request standing on the ports. -/
def State.request (s : State) : Request := ⟨s.op, s.width, s.lsb, s.word, s.value⟩

/-- The control word standing on the three narrow ports (R62). -/
def State.ctl (s : State) : Ctl := assembleCtl s.op s.width s.lsb

/-- The host drives the three narrow ports from a control word. -/
def State.driveCtl (s : State) (c : Ctl) : State :=
  { s with op := ctlOp c, width := ctlWidth c, lsb := ctlLsb c }

/-- The host drives all five request ports, as one consistent request (70_reset_and_hazards.md R203). -/
def State.present (s : State) (r : Request) : State :=
  { s with op := r.op, width := r.width, lsb := r.lsb, word := r.word, value := r.value }

end Sys2Proof.Machine
end

