-- ==== Sys2Proof/Machine/Flags.lean ====
section
/-! DEFINITION. The block has no flags (spec/10_state.md R23); the outcome of an operation is on the `status`, `cause` and
`result` ports. This file turns a response shape into those codes (30_encoding.md R64 to R67) and is the ONE place where
an operation's outcome is delivered: an error class is delivered here like any other response, there being no trap entry
and no return from one (60_exceptions.md R183 to R185). -/

namespace Sys2Proof.Machine

/-- 0 OK, 1 OVERFLOW, 2 FATAL (R65). -/
def Response.statusCode : Response → BitVec 2
  | .ok _ => 0
  | .overflow => 1
  | .fatal _ => 2

/-- 1 CAPACITY, 2 WIDTH_ZERO, 3 ILLEGAL_OP (R65). -/
def FatalCause.code : FatalCause → BitVec 2
  | .capacity => 1
  | .widthZero => 2
  | .illegalOp => 3

/-- The cause is NONE, code 0, unless the status is FATAL (R65). -/
def Response.causeCode : Response → BitVec 2
  | .ok _ => 0
  | .overflow => 0
  | .fatal c => c.code

/-- The `result` port: 0 when the response carries no value (R66). -/
def Response.resultBits : Response → Word
  | .ok r => r
  | .overflow => 0
  | .fatal _ => 0

/-- A boolean result: 1 or 0, bits 63 to 1 zero (R17, R67). -/
def zext64 (b : Bool) : Word := if b then 1 else 0

/-- The block drives its three response ports; no request port changes (R44). -/
def State.putResponse (s : State) (r : Response) : State :=
  { s with status := r.statusCode, cause := r.causeCode, result := r.resultBits }

/-- How every operation ends, OK, OVERFLOW and FATAL alike: with a response on the ports (R183). -/
def State.answer (s : State) (r : Response) : Host.Outcome State Fault Refusal := .next (s.putResponse r)

/-- What a host reads off the three response ports; none for a code the block never produces (R65). -/
def State.sample (s : State) : Option Response :=
  match s.status.toNat, s.cause.toNat with
  | 0, 0 => some (.ok s.result)
  | 1, 0 => some .overflow
  | 2, 1 => some (.fatal .capacity)
  | 2, 2 => some (.fatal .widthZero)
  | 2, 3 => some (.fatal .illegalOp)
  | _, _ => none

end Sys2Proof.Machine
end

