-- ==== Sys2Proof/Machine/Operands.lean ====
section
/-! DEFINITION. The checks an operation makes on its operands before it computes (spec/60_exceptions.md R179 to R181), in the
order of precedence R187: WIDTH_ZERO, then CAPACITY; the fit of a value, OVERFLOW, comes after both and is the insertion's
own. -/

namespace Sys2Proof.Machine

/-- A valid field descriptor: `1 <= width` and `width + lsb <= 64`, the sum exact (10_state.md R29, 30_encoding.md R63). -/
abbrev ValidField (width lsb : Nat) : Prop := 1 ≤ width ∧ width + lsb ≤ Config.cap

/-- The domain check of the extractions and insertions (R179, R181): the sum is a natural number and cannot wrap. -/
def fieldFault (width lsb : Nat) : Option FatalCause :=
  if width = 0 then some .widthZero else if width + lsb > Config.cap then some .capacity else none

/-- The domain check of the fit predicates, which have no `lsb` (R179, R180). -/
def fitFault (width : Nat) : Option FatalCause :=
  if width = 0 then some .widthZero else if width > Config.cap then some .capacity else none

/-- The first `raise` reached ends the evaluation (00_scope.md R17): a failed check is the whole response. -/
def guarded (check : Option FatalCause) (rest : Response) : Response :=
  match check with
  | some c => .fatal c
  | none => rest

end Sys2Proof.Machine
end

