-- ==== Sys2Proof/Machine/Extract.lean ====
section
/-! DEFINITION. Field extraction (spec/42_extraction.md): the two-shift algorithm of R120, behind the descriptor check. -/

namespace Sys2Proof.Machine

/-- The field moved to the top of the word, then back down with zeros entering (R121). -/
def extractU (word : Word) (width lsb : Nat) : Word :=
  lshr64 (shl64 word (Config.cap - width - lsb)) (Config.cap - width)

/-- The field moved to the top of the word, then back down with its top bit entering (R122). -/
def extractS (word : Word) (width lsb : Nat) : Word :=
  ashr64 (shl64 word (Config.cap - width - lsb)) (Config.cap - width)

/-- `get_unsigned(word, width, lsb)` (R121). -/
def respGetUnsigned (word : Word) (width lsb : Nat) : Response :=
  guarded (fieldFault width lsb) (.ok (extractU word width lsb))

/-- `get_signed(word, width, lsb)` (R122). -/
def respGetSigned (word : Word) (width lsb : Nat) : Response :=
  guarded (fieldFault width lsb) (.ok (extractS word width lsb))

/-- op 5. -/
def execGetUnsigned (width lsb : Nat) (s : State) : Host.Outcome State Fault Refusal :=
  s.answer (respGetUnsigned s.word width lsb)

/-- op 6. -/
def execGetSigned (width lsb : Nat) (s : State) : Host.Outcome State Fault Refusal :=
  s.answer (respGetSigned s.word width lsb)

end Sys2Proof.Machine
end

