-- ==== Sys2Proof/Machine/Extremal.lean ====
section
/-! DEFINITION. The extremal-value operations (spec/41_extremal_values.md R104 to R106). They have no error: every width, 0
and 65 to 127 included, gives a value. -/

namespace Sys2Proof.Machine

/-- `unsigned_max(width)` (R104). -/
def respUnsignedMax (width : Nat) : Response := .ok (umaxBits width)

/-- `signed_max(width)` (R105). -/
def respSignedMax (width : Nat) : Response := .ok (enc64 (smax width))

/-- `signed_min(width)` (R106). -/
def respSignedMin (width : Nat) : Response := .ok (enc64 (smin width))

/-- op 2. -/
def execUnsignedMax (width : Nat) (s : State) : Host.Outcome State Fault Refusal :=
  s.answer (respUnsignedMax width)

/-- op 3. -/
def execSignedMax (width : Nat) (s : State) : Host.Outcome State Fault Refusal :=
  s.answer (respSignedMax width)

/-- op 4. -/
def execSignedMin (width : Nat) (s : State) : Host.Outcome State Fault Refusal :=
  s.answer (respSignedMin width)

end Sys2Proof.Machine
end

