-- ==== Sys2Proof/Machine/Fit.lean ====
section
/-! DEFINITION. The fit predicates (spec/40_fit_predicates.md), the field fit-check comparator. -/

namespace Sys2Proof.Machine

/-- `smin(width) <= n <= smax(width)` (R91). -/
def fitsS (value : Word) (width : Nat) : Bool := decide (smin width ≤ s64 value ∧ s64 value ≤ smax width)

/-- `value <= umax(width)` (R92). -/
def fitsU (value : Word) (width : Nat) : Bool := decide (value.toNat ≤ umax width)

/-- `fits_signed(n, width)` (R91): a value that does not fit is an answer, not an error. -/
def respFitsSigned (value : Word) (width : Nat) : Response :=
  guarded (fitFault width) (.ok (zext64 (fitsS value width)))

/-- `fits_unsigned(n, width)` (R92). -/
def respFitsUnsigned (value : Word) (width : Nat) : Response :=
  guarded (fitFault width) (.ok (zext64 (fitsU value width)))

/-- op 0. -/
def execFitsSigned (width : Nat) (s : State) : Host.Outcome State Fault Refusal :=
  s.answer (respFitsSigned s.value width)

/-- op 1. -/
def execFitsUnsigned (width : Nat) (s : State) : Host.Outcome State Fault Refusal :=
  s.answer (respFitsUnsigned s.value width)

end Sys2Proof.Machine
end

