-- ==== Sys2Proof/Machine/Insert.lean ====
section
/-! DEFINITION. Field insertion (spec/43_insertion.md): the descriptor check, then the fit check, then the replacement
(R135). The new word goes to `result`; the `word` port is only read. -/

namespace Sys2Proof.Machine

/-- `left | right | middle` (R136). -/
def insertField (word : Word) (width lsb : Nat) (value : Word) : Word :=
  (word &&& ~~~ ones (lsb + width)) ||| (word &&& ones lsb) ||| shl64 (value &&& umaxBits width) lsb

/-- `set_unsigned(word, width, lsb, value)` (R137). -/
def respSetUnsigned (word : Word) (width lsb : Nat) (value : Word) : Response :=
  guarded (fieldFault width lsb)
    (if value.toNat > umax width then .overflow else .ok (insertField word width lsb value))

/-- `set_signed(word, width, lsb, value)` (R138). -/
def respSetSigned (word : Word) (width lsb : Nat) (value : Word) : Response :=
  guarded (fieldFault width lsb)
    (if s64 value < smin width ∨ s64 value > smax width then .overflow else .ok (insertField word width lsb value))

/-- op 7. -/
def execSetUnsigned (width lsb : Nat) (s : State) : Host.Outcome State Fault Refusal :=
  s.answer (respSetUnsigned s.word width lsb s.value)

/-- op 8. -/
def execSetSigned (width lsb : Nat) (s : State) : Host.Outcome State Fault Refusal :=
  s.answer (respSetSigned s.word width lsb s.value)

end Sys2Proof.Machine
end

