-- ==== Sys2Proof/Machine/Reserved.lean ====
section
/-! DEFINITION. The reserved operation codes 9 to 15 (spec/30_encoding.md R70, 60_exceptions.md R182): not hints, not no-ops,
not a custom space. Each answers FATAL, ILLEGAL_OP, result 0, whatever the other ports carry. -/

namespace Sys2Proof.Machine

/-- `raise Fatal(ILLEGAL_OP)`. -/
def respIllegalOp : Response := .fatal .illegalOp

/-- op 9. -/
def execReserved9 (s : State) : Host.Outcome State Fault Refusal := s.answer respIllegalOp

/-- op 10. -/
def execReserved10 (s : State) : Host.Outcome State Fault Refusal := s.answer respIllegalOp

/-- op 11. -/
def execReserved11 (s : State) : Host.Outcome State Fault Refusal := s.answer respIllegalOp

/-- op 12. -/
def execReserved12 (s : State) : Host.Outcome State Fault Refusal := s.answer respIllegalOp

/-- op 13. -/
def execReserved13 (s : State) : Host.Outcome State Fault Refusal := s.answer respIllegalOp

/-- op 14. -/
def execReserved14 (s : State) : Host.Outcome State Fault Refusal := s.answer respIllegalOp

/-- op 15. -/
def execReserved15 (s : State) : Host.Outcome State Fault Refusal := s.answer respIllegalOp

end Sys2Proof.Machine
end

