-- ==== Sys2Proof/Machine/Dispatch.lean ====
section
/-! DEFINITION. One arm per constructor of Instr, each a call of that instruction's own meaning. -/

namespace Sys2Proof.Machine

def exec (i : Instr) (s : State) : Host.Outcome State Fault Refusal :=
  match i with
  | .fitsSigned width => Sys2Proof.Machine.execFitsSigned width s
  | .fitsUnsigned width => Sys2Proof.Machine.execFitsUnsigned width s
  | .unsignedMax width => Sys2Proof.Machine.execUnsignedMax width s
  | .signedMax width => Sys2Proof.Machine.execSignedMax width s
  | .signedMin width => Sys2Proof.Machine.execSignedMin width s
  | .getUnsigned width lsb => Sys2Proof.Machine.execGetUnsigned width lsb s
  | .getSigned width lsb => Sys2Proof.Machine.execGetSigned width lsb s
  | .setUnsigned width lsb => Sys2Proof.Machine.execSetUnsigned width lsb s
  | .setSigned width lsb => Sys2Proof.Machine.execSetSigned width lsb s
  | .reserved9 => Sys2Proof.Machine.execReserved9 s
  | .reserved10 => Sys2Proof.Machine.execReserved10 s
  | .reserved11 => Sys2Proof.Machine.execReserved11 s
  | .reserved12 => Sys2Proof.Machine.execReserved12 s
  | .reserved13 => Sys2Proof.Machine.execReserved13 s
  | .reserved14 => Sys2Proof.Machine.execReserved14 s
  | .reserved15 => Sys2Proof.Machine.execReserved15 s

end Sys2Proof.Machine
end

