-- ==== Sys2Proof/Machine/Step.lean ====
section
/-! DEFINITION. One step: the request standing on the ports is answered (spec/70_reset_and_hazards.md R202). The block fetches
nothing (10_state.md R22): its next instruction is the control word the host drives on `op`, `width` and `lsb`. -/

namespace Sys2Proof.Machine

/-- Decode the control word on the narrow ports and run the instruction; the request ports stay as the host drives
them. -/
def step (s : State) : Host.Outcome State Fault Refusal := exec (decode s.ctl) s

/-- The host drives the control word `w` (numbered as the opcode table numbers it, in `nbits` bits) on the narrow ports, so
that the next step answers it; `word` and `value` stay as they are (notes/assumptions/2.md). -/
def State.withFetchWord (s : State) (nbits w : Nat) : State := s.driveCtl (BitVec.ofNat 18 (w % 2 ^ nbits))

end Sys2Proof.Machine
end

