-- ==== Sys2Proof/Machine/Instances.lean ====
section
/-! DEFINITION. Several instances of the block (spec/20_memory.md R51, decision D24): `n` copies of the same function, with no
shared state; a request goes to one of them, whole. -/

namespace Sys2Proof.Machine

/-- Present a request to instance `k` and let it answer; the others are not touched. -/
def serveInstance (k : Nat) (r : Request) (units : List State) : Host.Outcome (List State) Fault Refusal :=
  match units[k]? with
  | none => .refused (.noSuchInstance k)
  | some unit =>
    match step (unit.present r) with
    | .next t => .next (units.set k t)
    | .fault f => .fault f
    | .refused e => .refused e

end Sys2Proof.Machine
end

