-- ==== Sys2Proof/Machine/Respond.lean ====
section
/-! DEFINITION. The block as the one combinational function of spec/30_encoding.md R60, written from the case table there
and from nothing else of the model: neither the decoder nor `exec` is used, so that "a step answers `respond` of the
request" is a statement about both. -/

namespace Sys2Proof.Machine

/-- `respond : Request -> Response` (R60), total. -/
def respond (r : Request) : Response :=
  match r.op.toNat with
  | 0 => respFitsSigned r.value r.width.toNat
  | 1 => respFitsUnsigned r.value r.width.toNat
  | 2 => respUnsignedMax r.width.toNat
  | 3 => respSignedMax r.width.toNat
  | 4 => respSignedMin r.width.toNat
  | 5 => respGetUnsigned r.word r.width.toNat r.lsb.toNat
  | 6 => respGetSigned r.word r.width.toNat r.lsb.toNat
  | 7 => respSetUnsigned r.word r.width.toNat r.lsb.toNat r.value
  | 8 => respSetSigned r.word r.width.toNat r.lsb.toNat r.value
  | _ => .fatal .illegalOp

end Sys2Proof.Machine
end

