-- ==== Sys2Proof/Machine/Script.lean ====
section
/-! DEFINITION. A host driving the block: the script notation of spec/95_test_vectors.md section 7 and its end-of-run rule
(70_reset_and_hazards.md R207, 60_exceptions.md R186, decision D21). None of this is the block's: `step` does not use it. -/

namespace Sys2Proof.Machine

/-- What a script step puts on a 64-bit port: a literal, or `rk`, the result an earlier step bound. -/
inductive ScriptOperand where
  | literal (w : Word)
  | result (k : Nat)
  deriving DecidableEq, Repr

/-- A script step: the triple `(ctl, word, value)` of R62. -/
structure ScriptStep where
  ctl : Ctl
  word : ScriptOperand
  value : ScriptOperand
  deriving DecidableEq, Repr

/-- A host in the middle of a run: the block it drives, and one entry a request issued, `rk` at position `k - 1`; an
OVERFLOW binds nothing. -/
structure HostRun where
  unit : State
  bindings : List (Option Word)
  deriving DecidableEq, Repr

/-- `rk` counts from 1; none where step `k` bound nothing or has not been issued. -/
def readOperand (bindings : List (Option Word)) : ScriptOperand → Option Word
  | .literal w => some w
  | .result k => if k = 0 then none else (bindings[k - 1]?).join

/-- Drive one whole request and let the block answer it (R203). -/
def issue (c : Ctl) (word value : Word) (unit : State) : Host.Outcome State Fault Refusal :=
  step (unit.present ⟨ctlOp c, ctlWidth c, ctlLsb c, word, value⟩)

/-- The host samples the response: OK binds the result, OVERFLOW binds nothing and the run goes on (R177, R186 (c)), FATAL is
a fault of the run (R186 (b)). -/
def bindResponse (h : HostRun) (unit : State) : Host.Outcome HostRun Fault Refusal :=
  match unit.sample with
  | some (.ok r) => .next ⟨unit, h.bindings ++ [some r]⟩
  | some .overflow => .next ⟨unit, h.bindings ++ [none]⟩
  | some (.fatal c) => .fault (.contractViolation c)
  | none => .refused .brokenResponse

/-- One step of a script. -/
def hostStep (st : ScriptStep) (h : HostRun) : Host.Outcome HostRun Fault Refusal :=
  match readOperand h.bindings st.word, readOperand h.bindings st.value with
  | some w, some v =>
    match issue st.ctl w v h.unit with
    | .next unit => bindResponse h unit
    | .fault f => .fault f
    | .refused r => .refused r
  | _, _ => .refused (.unboundResult (h.bindings.length + 1))

/-- How a run ended. -/
inductive RunEnd where
  | completed
  | failed (f : Fault)
  | refused (r : Refusal)
  deriving DecidableEq, Repr

/-- The end of a run: the host as the last answered request left it, and how the run ended. -/
structure RunResult where
  host : HostRun
  ending : RunEnd
  deriving DecidableEq, Repr

/-- Requests are issued in order; the run ends after the last one or at the first FATAL response, and the later requests
are never issued (R207). -/
def runScript : List ScriptStep → HostRun → RunResult
  | [], h => ⟨h, .completed⟩
  | st :: rest, h =>
    match hostStep st h with
    | .next h' => runScript rest h'
    | .fault f => ⟨h, .failed f⟩
    | .refused r => ⟨h, .refused r⟩

/-- Going on with more requests after a run: a run that failed stays failed, the failure is never cleared (R186 (b), R207). -/
def continueRun (more : List ScriptStep) (r : RunResult) : RunResult :=
  match r.ending with
  | .completed => runScript more r.host
  | .failed _ => r
  | .refused _ => r

/-- The start of every script: the block as it stands, and nothing bound. -/
def startRun (unit : State) : HostRun := ⟨unit, []⟩

end Sys2Proof.Machine
end

