-- ==== Sys2Proof/Safety.lean ====
section
/-! DEFINITION. The terms statements about the block are made in: what stands on the ports when they have settled, which
codes are legal, which requests are contract violations, and which ports an operation reads. -/

namespace Sys2Proof.Machine

/-- The response ports carry `respond` of the request ports: what a host may sample (spec/30_encoding.md R60,
70_reset_and_hazards.md R200, R203). -/
def State.Settled (s : State) : Prop := s.putResponse (respond s.request) = s

/-- The response codes are ones the block produces (R65): status 0, 1 or 2; cause NONE unless FATAL, and then one of 1, 2,
3; and no value on `result` unless OK (R66). -/
structure State.LegalResponse (s : State) : Prop where
  status_code : s.status ≠ 3
  cause_none : s.status ≠ 2 → s.cause = 0
  cause_some : s.status = 2 → s.cause ≠ 0
  result_zero : s.status ≠ 0 → s.result = 0

/-- The invariant of the ports between requests. -/
structure State.Inv (s : State) : Prop where
  settled : s.Settled
  legal : s.LegalResponse

/-- A host presents one whole request after another and each is answered (70_reset_and_hazards.md R203, R204). -/
def serveAll : List Request → State → Host.Outcome State Fault Refusal
  | [], s => .next s
  | r :: rest, s =>
    match step (s.present r) with
    | .next t => serveAll rest t
    | .fault f => .fault f
    | .refused e => .refused e

/-- The two states carry the same value on the port. -/
def AgreeOn (s t : State) : Port → Prop
  | .op => s.op = t.op
  | .width => s.width = t.width
  | .lsb => s.lsb = t.lsb
  | .word => s.word = t.word
  | .value => s.value = t.value

/-- The ports the operation code reads, from the rows of the opcode table (R68), beside `op` itself. -/
def portsRead (op : BitVec 4) : List Port :=
  ((opTable.filter fun row => row.accepts (assembleCtl op 0 0)).flatMap OpRow.reads)

/-- The response ports of the two states are equal. -/
def SameResponse (s t : State) : Prop := s.status = t.status ∧ s.cause = t.cause ∧ s.result = t.result

/-- The codes of the two insertions. -/
abbrev IsInsertion (op : BitVec 4) : Prop := op = 7 ∨ op = 8

/-- The six operations undefined at width 0 (60_exceptions.md R179): all but the extremal ones. -/
abbrev NeedsWidth (op : BitVec 4) : Prop := op = 0 ∨ op = 1 ∨ op = 5 ∨ op = 6 ∨ op = 7 ∨ op = 8

/-- Where the capacity is exceeded (R180, R181): the fit predicates at an offset of 0, the field operations at `lsb`. -/
abbrev ExceedsCapacity (s : State) : Prop :=
  ((s.op = 0 ∨ s.op = 1) ∧ s.width.toNat > 64) ∨
    ((s.op = 5 ∨ s.op = 6 ∨ s.op = 7 ∨ s.op = 8) ∧ s.width.toNat + s.lsb.toNat > 64)

end Sys2Proof.Machine
end

