-- ==== Sys2Proof/Certificates/Slice0/Obligations.lean ====
section
/-! DEFINITION. The statements for the provers. A next state written `{ s with status := _, cause := _, result := _ }` says
the whole frame: every other port is as it was. Codes: status 0 OK, 1 OVERFLOW, 2 FATAL; cause 0 NONE, 1 CAPACITY,
2 WIDTH_ZERO, 3 ILLEGAL_OP (spec/30_encoding.md R65). -/

open Sys2Proof Sys2Proof.Machine

/-! ### Encoding -/

/-- 30_encoding.md R62, R68: no operand bit of a well-formed instruction is lost on the way to the control word and back. -/
def Obligations.DecodeOfEncodeIsTheInstruction : Prop :=
  ∀ i : Instr, i.wellFormed = true → ∃ c, encode i = some c ∧ decode c = i

/-- R69, R73: encoding what a control word decodes to gives the control word with every port its operation ignores shown as
0. -/
def Obligations.EncodeOfDecodeClearsIgnoredPorts : Prop :=
  ∀ c : Ctl, encode (decode c) =
    some (assembleCtl (ctlOp c) (if Port.width ∈ portsRead (ctlOp c) then ctlWidth c else 0)
      (if Port.lsb ∈ portsRead (ctlOp c) then ctlLsb c else 0))

/-- R62. -/
def Obligations.ControlWordIsTheWeightedSum : Prop :=
  (∀ s : State, s.ctl.toNat = s.lsb.toNat * 2048 + s.width.toNat * 16 + s.op.toNat ∧
    ctlOp s.ctl = s.op ∧ ctlWidth s.ctl = s.width ∧ ctlLsb s.ctl = s.lsb) ∧
  ∀ c : Ctl, (∀ p < 4, (ctlOp c).getLsbD p = c.getLsbD p) ∧ (∀ p < 7, (ctlWidth c).getLsbD p = c.getLsbD (4 + p)) ∧
    (∀ p < 7, (ctlLsb c).getLsbD p = c.getLsbD (11 + p))

/-- R68, R70: exactly one row of the opcode table claims a control word, and it is the row of the decoded instruction. -/
def Obligations.EveryControlWordHasOneTableRow : Prop :=
  ∀ c : Ctl, ∃ row ∈ opTable, row.accepts c = true ∧ row.mnemonic = mnemonic (decode c) ∧
    ∀ other ∈ opTable, other.accepts c = true → other = row

/-- The control words of 95_test_vectors.md (S12, S13, S9 to S11, F1, F22, S15b, I17, Z1, Z3, Z2), decoded. -/
def Obligations.VectorControlWordsDecode : Prop :=
  decode 0x00030 = .fitsSigned 3 ∧ decode 0x00051 = .fitsUnsigned 5 ∧ decode 0x00032 = .unsignedMax 3 ∧
  decode 0x00033 = .signedMax 3 ∧ decode 0x00034 = .signedMin 3 ∧ decode 0x01065 = .getUnsigned 6 2 ∧
  decode 0x01066 = .getSigned 6 2 ∧ decode 0x1D857 = .setUnsigned 5 59 ∧ decode 0x0E048 = .setSigned 4 28 ∧
  decode 0x00049 = .reserved9 ∧ decode 0x3F80C = .reserved12 ∧ decode 0x0004F = .reserved15

/-- R63, 60_exceptions.md R186 (d): an operand that does not fit its 7-bit port is never truncated onto it. -/
def Obligations.EncodeRefusesOperandsBeyondThePort : Prop :=
  ∀ i : Instr, encode i = none ↔
    (∃ w, widthOperand i = some w ∧ 128 ≤ w) ∨ (∃ l, lsbOperand i = some l ∧ 128 ≤ l)

/-! ### The step -/

/-- The control word on the narrow ports always decodes to a well-formed instruction, and a step is that instruction's own
effect, with nothing around it. -/
def Obligations.StepRunsTheDecodedInstruction : Prop :=
  ∀ s : State, (∃ i, decodeWord s.ctl.toNat = .ok i ∧ i.wellFormed = true) ∧
    ∀ i, decodeWord s.ctl.toNat = .ok i → step s = exec i s

/-- The model's convention of notes/assumptions/2.md: a control word placed by `withFetchWord` is what the very next step
runs, and placing it changes no other port. -/
def Obligations.PlacedControlWordRunsNext : Prop :=
  ∀ (s : State) (w : Nat) (i : Instr), decodeTableWord 24 w = some i →
    step (s.withFetchWord 24 w) = exec i (s.withFetchWord 24 w) ∧
    (s.withFetchWord 24 w).ctl.toNat = w % 2 ^ 24 ∧
    (s.withFetchWord 24 w).word = s.word ∧ (s.withFetchWord 24 w).value = s.value ∧
    SameResponse (s.withFetchWord 24 w) s

/-- R60: the decoder and the sixteen meanings together are the one combinational function of the spec's case table. -/
def Obligations.StepAnswersRespond : Prop :=
  ∀ s : State, step s = .next (s.putResponse (respond s.request))

/-- 44_laws.md R167: every request gets a response, and two states with the same request, whatever else they hold, go to the
same state. -/
def Obligations.SameRequestSameResponse : Prop :=
  ∀ s t : State, s.request = t.request → ∃ u, step s = .next u ∧ step t = .next u

/-- 20_memory.md R44: presenting the same request again gives the same response again. -/
def Obligations.PresentingAgainChangesNothing : Prop :=
  ∀ s t : State, step s = .next t → step t = .next t

/-- 20_memory.md R46 (and 10_state.md R20, R23, 60_exceptions.md R183, R185): after any list of requests, answered OK,
OVERFLOW or FATAL, the next request is answered as the same request on any other block with any other past. -/
def Obligations.ResponseDependsOnItsRequestOnly : Prop :=
  ∀ (earlier : List Request) (s : State) (r : Request), ∃ t u,
    serveAll earlier s = .next t ∧ step (t.present r) = .next u ∧ u.request = r ∧ u.sample = some (respond r) ∧
    ∀ (other : List Request) (s' t' : State), serveAll other s' = .next t' → step (t'.present r) = .next u

/-- R28, R44, 43_insertion.md R135: an instruction only reads the request ports; no operation writes the word it was given.
Only `status`, `cause` and `result` can differ. -/
def Obligations.RequestPortsAreOnlyRead : Prop :=
  ∀ (i : Instr) (s : State), ∃ t, exec i s = .next t ∧
    t.op = s.op ∧ t.width = s.width ∧ t.lsb = s.lsb ∧ t.word = s.word ∧ t.value = s.value

/-- R69: two states that agree on the operation code and on the ports the table lists for it get the same response. -/
def Obligations.IgnoredPortsHaveNoEffect : Prop :=
  ∀ s t : State, s.op = t.op → (∀ p ∈ portsRead s.op, AgreeOn s t p) →
    ∃ s' t', step s = .next s' ∧ step t = .next t' ∧ SameResponse s' t'

/-! ### Invariants of the ports -/

/-- R60, R65, R66, 70_reset_and_hazards.md R200, R203: every step, from whatever stands on the ports, leaves the response ports
settled and their codes legal; so the host's cycle, any whole request driven on a settled block and answered, keeps the
invariant, and it always comes to an end. -/
def Obligations.StepKeepsThePortInvariant : Prop :=
  (∀ s s' : State, step s = .next s' → s'.Inv) ∧
  ∀ s : State, s.Inv → ∀ r : Request, ∃ s', step (s.present r) = .next s' ∧ s'.Inv ∧ s'.request = r

/-- 10_state.md R32, R33 with the request the model drives at reset (DESIGN CHOICE, notes/assumptions/1.md). -/
def Obligations.ResetMeetsThePortInvariant : Prop := State.reset.Inv

/-- R65: the code of each status and cause, and which of them a step can leave on the ports. -/
def Obligations.ResponseCodesAreTheSpecs : Prop :=
  (∀ w, (Response.ok w).statusCode = 0) ∧ Response.overflow.statusCode = 1 ∧ (∀ c, (Response.fatal c).statusCode = 2) ∧
  FatalCause.capacity.code = 1 ∧ FatalCause.widthZero.code = 2 ∧ FatalCause.illegalOp.code = 3 ∧
  ∀ s t : State, step s = .next t → t.status ≠ 3 ∧ (t.status = 0 ∨ t.status = 1 → t.cause = 0) ∧
    (t.status = 2 → t.cause = 1 ∨ t.cause = 2 ∨ t.cause = 3)

/-- R66. -/
def Obligations.NoResultWithoutOk : Prop :=
  ∀ s t : State, step s = .next t → t.status = 1 ∨ t.status = 2 → t.result = 0

/-! ### Errors -/

/-- 60_exceptions.md R177: OVERFLOW exactly when an insertion has a valid descriptor and its value does not fit; and the
host may go on, the next request being answered as if the failed one had not been made. -/
def Obligations.OverflowExactlyWhenAValueDoesNotFit : Prop :=
  ∀ s t : State, step s = .next t →
    (t.status = 1 ↔ IsInsertion s.op ∧ ValidField s.width.toNat s.lsb.toNat ∧
      (s.op = 7 → 2 ^ s.width.toNat ≤ s.value.toNat) ∧
      (s.op = 8 → s.value.toInt < -2 ^ (s.width.toNat - 1) ∨ 2 ^ (s.width.toNat - 1) ≤ s.value.toInt)) ∧
    (t.status = 1 → ∀ r, step (t.present r) = step (s.present r))

/-- R175, R179 to R182, R187: which fatal event a request meets, one at most, in the order ILLEGAL_OP, WIDTH_ZERO,
CAPACITY. -/
def Obligations.FatalEventsAndTheirPrecedence : Prop :=
  ∀ s t : State, step s = .next t →
    (t.status = 2 ↔ 9 ≤ s.op.toNat ∨ NeedsWidth s.op ∧ s.width = 0 ∨ ExceedsCapacity s) ∧
    t.cause = (if 9 ≤ s.op.toNat then 3 else if NeedsWidth s.op ∧ s.width = 0 then 2
      else if ExceedsCapacity s then 1 else 0)

/-- R70: the seven reserved codes, as instructions and as a request whatever the other ports carry. -/
def Obligations.ReservedCodesAnswerIllegalOp : Prop :=
  (∀ s : State, ∀ i ∈ [Instr.reserved9, .reserved10, .reserved11, .reserved12, .reserved13, .reserved14, .reserved15],
    exec i s = .next { s with status := 2, cause := 3, result := 0 }) ∧
  ∀ s : State, 9 ≤ s.op.toNat → step s = .next { s with status := 2, cause := 3, result := 0 }

/-! ### The primitives -/

/-- 00_scope.md R14: the two's-complement reading of a port value, its range, and the encoding of an integer. -/
def Obligations.TwosComplementReadsBack : Prop :=
  (∀ x : Word, (x.getLsbD 63 = false → s64 x = x.toNat) ∧ (x.getLsbD 63 = true → s64 x = (x.toNat : Int) - 2 ^ 64) ∧
    -2 ^ 63 ≤ s64 x ∧ s64 x ≤ 2 ^ 63 - 1 ∧ enc64 (s64 x) = x) ∧
  (∀ n : Int, -2 ^ 63 ≤ n → n ≤ 2 ^ 64 - 1 → ((enc64 n).toNat : Int) = n % 2 ^ 64) ∧
  ∀ n : Int, -2 ^ 63 ≤ n → n ≤ 2 ^ 63 - 1 → s64 (enc64 n) = n

/-- R15: the three shifts at every amount. -/
def Obligations.ShiftPrimitivesAreTotal : Prop :=
  ∀ (x : Word) (k : Nat),
    (k ≤ 63 → (shl64 x k).toNat = x.toNat * 2 ^ k % 2 ^ 64 ∧ (lshr64 x k).toNat = x.toNat / 2 ^ k ∧
      (ashr64 x k).toInt = x.toInt / 2 ^ k ∧
      ∀ p < 64, (ashr64 x k).getLsbD p = if p + k < 64 then x.getLsbD (p + k) else x.getLsbD 63) ∧
    (64 ≤ k → shl64 x k = 0 ∧ lshr64 x k = 0 ∧
      ashr64 x k = if x.getLsbD 63 then 0xFFFFFFFFFFFFFFFF else 0)

/-! ### Fit predicates -/

/-- 40_fit_predicates.md R91, with its two forms of the test. -/
def Obligations.FitsSignedAnswers : Prop :=
  ∀ (width : Nat) (s : State),
    (width = 0 → exec (.fitsSigned width) s = .next { s with status := 2, cause := 2, result := 0 }) ∧
    (64 < width → exec (.fitsSigned width) s = .next { s with status := 2, cause := 1, result := 0 }) ∧
    (1 ≤ width → width ≤ 64 →
      exec (.fitsSigned width) s = .next { s with
        status := 0, cause := 0,
        result := if -2 ^ (width - 1) ≤ s.value.toInt ∧ s.value.toInt ≤ 2 ^ (width - 1) - 1 then 1 else 0 } ∧
      (sextw s.value width = s.value ↔ -2 ^ (width - 1) ≤ s.value.toInt ∧ s.value.toInt ≤ 2 ^ (width - 1) - 1)) ∧
    (width < 128 → encode (.fitsSigned width) = some (BitVec.ofNat 18 (width * 16 + 0)))

/-- 40_fit_predicates.md R92, with its two forms of the test. -/
def Obligations.FitsUnsignedAnswers : Prop :=
  ∀ (width : Nat) (s : State),
    (width = 0 → exec (.fitsUnsigned width) s = .next { s with status := 2, cause := 2, result := 0 }) ∧
    (64 < width → exec (.fitsUnsigned width) s = .next { s with status := 2, cause := 1, result := 0 }) ∧
    (1 ≤ width → width ≤ 64 →
      exec (.fitsUnsigned width) s = .next { s with
        status := 0, cause := 0, result := if s.value.toNat < 2 ^ width then 1 else 0 } ∧
      (s.value.toNat < 2 ^ width ↔ ∀ p, width ≤ p → s.value.getLsbD p = false)) ∧
    (width < 128 → encode (.fitsUnsigned width) = some (BitVec.ofNat 18 (width * 16 + 1)))

/-- R93: the fit predicates against the answers of the extremal operations, run on the same block. -/
def Obligations.FitPredicatesAgreeWithExtremalAnswers : Prop :=
  ∀ (width : Nat) (s : State), 1 ≤ width → width ≤ 64 →
    ∃ umx smx smn u g, exec (.unsignedMax width) s = .next umx ∧ exec (.signedMax width) s = .next smx ∧
      exec (.signedMin width) s = .next smn ∧ exec (.fitsUnsigned width) s = .next u ∧
      exec (.fitsSigned width) s = .next g ∧
      umx.status = 0 ∧ smx.status = 0 ∧ smn.status = 0 ∧ u.status = 0 ∧ g.status = 0 ∧
      u.result = (if s.value.toNat ≤ umx.result.toNat then 1 else 0) ∧
      g.result = (if smn.result.toInt ≤ s.value.toInt ∧ s.value.toInt ≤ smx.result.toInt then 1 else 0)

/-- R94: the ranges are nested, and an unsigned fit is a signed fit one bit wider. -/
def Obligations.FitIsMonotoneInTheWidth : Prop :=
  ∀ (v : Word) (w1 w2 : Nat), 1 ≤ w1 → w1 ≤ w2 → w2 ≤ 64 →
    (respFitsSigned v w1 = .ok 1 → respFitsSigned v w2 = .ok 1) ∧
    (respFitsUnsigned v w1 = .ok 1 → respFitsUnsigned v w2 = .ok 1) ∧
    (v.getLsbD 63 = false → w1 ≤ 63 → respFitsUnsigned v w1 = .ok 1 → respFitsSigned v (w1 + 1) = .ok 1)

/-! ### Extremal values -/

/-- 41_extremal_values.md R100, R104. -/
def Obligations.UnsignedMaxAnswers : Prop :=
  ∀ (width : Nat) (s : State), ∃ r : Word,
    exec (.unsignedMax width) s = .next { s with status := 0, cause := 0, result := r } ∧
    (width ≤ 63 → r.toNat = 2 ^ width - 1) ∧ (64 ≤ width → r = 0xFFFFFFFFFFFFFFFF) ∧
    (∀ p < 64, r.getLsbD p = decide (p < width)) ∧
    (width < 128 → encode (.unsignedMax width) = some (BitVec.ofNat 18 (width * 16 + 2)))

/-- R101, R105. -/
def Obligations.SignedMaxAnswers : Prop :=
  ∀ (width : Nat) (s : State), ∃ r : Word,
    exec (.signedMax width) s = .next { s with status := 0, cause := 0, result := r } ∧
    (width = 0 → r.toInt = -1) ∧ (1 ≤ width → width ≤ 63 → r.toInt = 2 ^ (width - 1) - 1) ∧
    (64 ≤ width → r.toInt = 2 ^ 63 - 1) ∧
    (1 ≤ width → ∀ p < 64, r.getLsbD p = decide (p < min (width - 1) 63)) ∧
    (width < 128 → encode (.signedMax width) = some (BitVec.ofNat 18 (width * 16 + 3)))

/-- R102, R106. -/
def Obligations.SignedMinAnswers : Prop :=
  ∀ (width : Nat) (s : State), ∃ r : Word,
    exec (.signedMin width) s = .next { s with status := 0, cause := 0, result := r } ∧
    (width = 0 → r.toInt = 0) ∧ (1 ≤ width → width ≤ 63 → r.toInt = -2 ^ (width - 1)) ∧
    (64 ≤ width → r.toInt = -2 ^ 63) ∧
    (1 ≤ width → ∀ p < 64, r.getLsbD p = decide (min (width - 1) 63 ≤ p)) ∧
    (width < 128 → encode (.signedMin width) = some (BitVec.ofNat 18 (width * 16 + 4)))

/-- 44_laws.md R166, at 0 too, where two of the identities fail. -/
def Obligations.ExtremalIdentities : Prop :=
  (∀ w, 1 ≤ w → w ≤ 64 → smin w = -smax w - 1 ∧ (umax w : Int) = 2 * smax w + 1 ∧
    (umax w : Int) = smax w - smin w ∧ enc64 (smin w) = ~~~ enc64 (smax w)) ∧
  (∀ w1 w2, 1 ≤ w1 → w1 ≤ w2 → w2 ≤ 127 → umax w1 ≤ umax w2 ∧ smax w1 ≤ smax w2 ∧ smin w2 ≤ smin w1) ∧
  umax 0 = 0 ∧ smax 0 = -1 ∧ smin 0 = 0 ∧ smin 0 = -smax 0 - 1 ∧ (umax 0 : Int) ≠ 2 * smax 0 + 1 ∧
  (umax 0 : Int) ≠ smax 0 - smin 0

/-- 41_extremal_values.md R103: the two-shift form, the mask form, the bits and the integer. -/
def Obligations.SignExtensionFormsAgree : Prop :=
  ∀ (v : Word) (w : Nat), 1 ≤ w → w ≤ 64 →
    sextw v w = ashr64 (shl64 v (64 - w)) (64 - w) ∧ sextw v w = sextwMask v w ∧
    (∀ p < 64, (signmask w).getLsbD p = decide (w ≤ p)) ∧
    (∀ p < 64, (sextw v w).getLsbD p = if p < w then v.getLsbD p else v.getLsbD (w - 1)) ∧
    (sextw v w).toInt = (if v.toNat % 2 ^ w < 2 ^ (w - 1) then ((v.toNat % 2 ^ w : Nat) : Int)
      else ((v.toNat % 2 ^ w : Nat) : Int) - 2 ^ w) ∧
    sextw v 64 = v

/-- R107: the field mask, the three parts an insertion is written with, and the partition of the 64 positions. -/
def Obligations.FieldMaskAndItsPartition : Prop :=
  ∀ (w l : Nat), ValidField w l →
    fieldmask w l = shl64 (umaxBits w) l ∧ fieldmask w l = (ones (l + w) &&& ~~~ ones l) ∧
    (∀ p < 64, (fieldmask w l).getLsbD p = decide (l ≤ p ∧ p < l + w)) ∧
    (∀ p < 64,
      ((~~~ ones (l + w)).getLsbD p = true ∧ (fieldmask w l).getLsbD p = false ∧ (ones l).getLsbD p = false) ∨
      ((~~~ ones (l + w)).getLsbD p = false ∧ (fieldmask w l).getLsbD p = true ∧ (ones l).getLsbD p = false) ∨
      ((~~~ ones (l + w)).getLsbD p = false ∧ (fieldmask w l).getLsbD p = false ∧ (ones l).getLsbD p = true)) ∧
    ∀ word value : Word, insertField word w l value =
      ((word &&& ~~~ ones (l + w)) ||| (word &&& ones l) ||| shl64 (value &&& umaxBits w) l)

/-! ### Extraction -/

/-- 42_extraction.md R121, with its two closed forms. -/
def Obligations.GetUnsignedAnswers : Prop :=
  ∀ (width lsb : Nat) (s : State),
    (width = 0 → exec (.getUnsigned width lsb) s = .next { s with status := 2, cause := 2, result := 0 }) ∧
    (1 ≤ width → 64 < width + lsb →
      exec (.getUnsigned width lsb) s = .next { s with status := 2, cause := 1, result := 0 }) ∧
    (ValidField width lsb → ∃ r : Word,
      exec (.getUnsigned width lsb) s = .next { s with status := 0, cause := 0, result := r } ∧
      r = lshr64 (shl64 s.word (64 - width - lsb)) (64 - width) ∧
      r.toNat = s.word.toNat / 2 ^ lsb % 2 ^ width ∧
      (∀ p, r.getLsbD p = (decide (p < width) && s.word.getLsbD (lsb + p))) ∧
      r = (lshr64 s.word lsb &&& umaxBits width)) ∧
    (width < 128 → lsb < 128 → encode (.getUnsigned width lsb) = some (BitVec.ofNat 18 (lsb * 2048 + width * 16 + 5)))

/-- R122, with its closed forms: the integer, the bits, the sign extension of the unsigned field. -/
def Obligations.GetSignedAnswers : Prop :=
  ∀ (width lsb : Nat) (s : State),
    (width = 0 → exec (.getSigned width lsb) s = .next { s with status := 2, cause := 2, result := 0 }) ∧
    (1 ≤ width → 64 < width + lsb →
      exec (.getSigned width lsb) s = .next { s with status := 2, cause := 1, result := 0 }) ∧
    (ValidField width lsb → ∃ r f : Word,
      exec (.getSigned width lsb) s = .next { s with status := 0, cause := 0, result := r } ∧
      exec (.getUnsigned width lsb) s = .next { s with status := 0, cause := 0, result := f } ∧
      r = ashr64 (shl64 s.word (64 - width - lsb)) (64 - width) ∧
      f.toNat = s.word.toNat / 2 ^ lsb % 2 ^ width ∧
      r.toInt = (if f.toNat < 2 ^ (width - 1) then (f.toNat : Int) else (f.toNat : Int) - 2 ^ width) ∧
      (∀ p < 64, r.getLsbD p = s.word.getLsbD (lsb + if p < width then p else width - 1)) ∧
      r = sextw f width) ∧
    (width < 128 → lsb < 128 → encode (.getSigned width lsb) = some (BitVec.ofNat 18 (lsb * 2048 + width * 16 + 6)))

/-- R123. -/
def Obligations.SignedAndUnsignedExtractionsShareTheField : Prop :=
  ∀ (width lsb : Nat) (s : State), ValidField width lsb →
    ∃ u g, exec (.getUnsigned width lsb) s = .next u ∧ exec (.getSigned width lsb) s = .next g ∧
      (g.result &&& umaxBits width) = u.result ∧
      (∀ p, width ≤ p → p < 64 →
        u.result.getLsbD p = false ∧ g.result.getLsbD p = s.word.getLsbD (lsb + width - 1)) ∧
      (g.result = u.result ↔ s.word.getLsbD (lsb + width - 1) = false ∨ width = 64)

/-- R124: a field of a field is a field of the word. -/
def Obligations.SubfieldExtractionComposes : Prop :=
  ∀ (width lsb w2 l2 : Nat) (s : State), ValidField width lsb → ValidField w2 l2 → w2 + l2 ≤ width →
    ∃ outer inner direct, exec (.getUnsigned width lsb) s = .next outer ∧ outer.status = 0 ∧
      exec (.getUnsigned w2 l2) { s with word := outer.result } = .next inner ∧ inner.status = 0 ∧
      exec (.getUnsigned w2 (lsb + l2)) s = .next direct ∧ direct.status = 0 ∧ inner.result = direct.result

/-! ### Insertion -/

/-- 43_insertion.md R136: the replacement, its closed form, its bits and its three boundary cases. -/
def Obligations.InsertionReplacesTheField : Prop :=
  ∀ (w l : Nat) (word value : Word), ValidField w l →
    insertField word w l value = ((word &&& ~~~ ones (l + w)) ||| (word &&& ones l) ||| shl64 (value &&& umaxBits w) l) ∧
    insertField word w l value = ((word &&& ~~~ fieldmask w l) ||| shl64 (value &&& umaxBits w) l) ∧
    (∀ p < 64, (insertField word w l value).getLsbD p =
      if l ≤ p ∧ p < l + w then value.getLsbD (p - l) else word.getLsbD p) ∧
    (l + w = 64 → (word &&& ~~~ ones (l + w)) = 0) ∧ (l = 0 → (word &&& ones l) = 0) ∧
    (w = 64 → insertField word w l value = value)

/-- R137: the descriptor checks, then the fit check, then the replacement. -/
def Obligations.SetUnsignedAnswers : Prop :=
  ∀ (width lsb : Nat) (s : State),
    (width = 0 → exec (.setUnsigned width lsb) s = .next { s with status := 2, cause := 2, result := 0 }) ∧
    (1 ≤ width → 64 < width + lsb →
      exec (.setUnsigned width lsb) s = .next { s with status := 2, cause := 1, result := 0 }) ∧
    (ValidField width lsb → 2 ^ width ≤ s.value.toNat →
      exec (.setUnsigned width lsb) s = .next { s with status := 1, cause := 0, result := 0 }) ∧
    (ValidField width lsb → s.value.toNat < 2 ^ width → ∃ r : Word,
      exec (.setUnsigned width lsb) s = .next { s with status := 0, cause := 0, result := r } ∧
      r = insertField s.word width lsb s.value ∧
      r = ((s.word &&& ~~~ fieldmask width lsb) ||| shl64 s.value lsb) ∧
      ∀ p < 64, r.getLsbD p = if lsb ≤ p ∧ p < lsb + width then s.value.getLsbD (p - lsb) else s.word.getLsbD p) ∧
    (width < 128 → lsb < 128 → encode (.setUnsigned width lsb) = some (BitVec.ofNat 18 (lsb * 2048 + width * 16 + 7)))

/-- R138: the same with the value read as signed; the field receives the low bits of its two's complement. -/
def Obligations.SetSignedAnswers : Prop :=
  ∀ (width lsb : Nat) (s : State),
    (width = 0 → exec (.setSigned width lsb) s = .next { s with status := 2, cause := 2, result := 0 }) ∧
    (1 ≤ width → 64 < width + lsb →
      exec (.setSigned width lsb) s = .next { s with status := 2, cause := 1, result := 0 }) ∧
    (ValidField width lsb → s.value.toInt < -2 ^ (width - 1) ∨ 2 ^ (width - 1) - 1 < s.value.toInt →
      exec (.setSigned width lsb) s = .next { s with status := 1, cause := 0, result := 0 }) ∧
    (ValidField width lsb → -2 ^ (width - 1) ≤ s.value.toInt → s.value.toInt ≤ 2 ^ (width - 1) - 1 → ∃ r : Word,
      exec (.setSigned width lsb) s = .next { s with status := 0, cause := 0, result := r } ∧
      r = insertField s.word width lsb s.value ∧
      ((s.value &&& umaxBits width).toNat : Int) =
        (if 0 ≤ s.value.toInt then s.value.toInt else s.value.toInt + 2 ^ width) ∧
      ∀ p < 64, r.getLsbD p = if lsb ≤ p ∧ p < lsb + width then s.value.getLsbD (p - lsb) else s.word.getLsbD p) ∧
    (width < 128 → lsb < 128 → encode (.setSigned width lsb) = some (BitVec.ofNat 18 (lsb * 2048 + width * 16 + 8)))

/-- R139: where both accept, both build the same word; and which 64-bit patterns each accepts. -/
def Obligations.InsertionsAgreeOnWhatBothAccept : Prop :=
  ∀ (width lsb : Nat) (s : State), ValidField width lsb →
    ((s.value.toNat : Int) ≤ smax width →
      exec (.setUnsigned width lsb) s = exec (.setSigned width lsb) s ∧ respFitsUnsigned s.value width = .ok 1 ∧
      respFitsSigned s.value width = .ok 1 ∧ s.value.toInt = s.value.toNat) ∧
    (∀ i ∈ [Instr.setUnsigned width lsb, .setSigned width lsb], ∃ t, exec i s = .next t ∧
      (t.status = 0 → t.result = insertField s.word width lsb s.value)) ∧
    (width ≤ 63 →
      (∃ t, exec (.setUnsigned width lsb) s = .next t ∧ (t.status = 0 ↔ s.value.toNat ≤ 2 ^ width - 1)) ∧
      (∃ t, exec (.setSigned width lsb) s = .next t ∧
        (t.status = 0 ↔ s.value.toNat ≤ 2 ^ (width - 1) - 1 ∨ 2 ^ 64 - 2 ^ (width - 1) ≤ s.value.toNat)))

/-! ### Laws over two requests: the second gets the first one's result on its `word` or `value` port -/

/-- 44_laws.md R157. -/
def Obligations.UnsignedRoundTrip : Prop :=
  ∀ (width lsb : Nat) (s : State), ValidField width lsb → respFitsUnsigned s.value width = .ok 1 →
    ∃ t u, exec (.setUnsigned width lsb) s = .next t ∧ t.status = 0 ∧
      exec (.getUnsigned width lsb) { t with word := t.result } = .next u ∧ u.status = 0 ∧ u.result = s.value

/-- R158. -/
def Obligations.SignedRoundTrip : Prop :=
  ∀ (width lsb : Nat) (s : State), ValidField width lsb → respFitsSigned s.value width = .ok 1 →
    ∃ t u, exec (.setSigned width lsb) s = .next t ∧ t.status = 0 ∧
      exec (.getSigned width lsb) { t with word := t.result } = .next u ∧ u.status = 0 ∧ u.result = s.value

/-- R159: an insertion that succeeds leaves every bit outside the field as it was in the word it was given. -/
def Obligations.BitsOutsideTheFieldAreUnchanged : Prop :=
  ∀ (width lsb : Nat) (s : State), ∀ i ∈ [Instr.setUnsigned width lsb, .setSigned width lsb],
    ∃ t, exec i s = .next t ∧
      (t.status = 0 → ∀ p, p < lsb ∨ lsb + width ≤ p → t.result.getLsbD p = s.word.getLsbD p)

/-- R160: what an extraction returns fits the width it was extracted with. -/
def Obligations.ExtractedValuesFitTheirWidth : Prop :=
  ∀ (width lsb : Nat) (s : State), ValidField width lsb →
    (∃ t u, exec (.getUnsigned width lsb) s = .next t ∧ t.status = 0 ∧
      exec (.fitsUnsigned width) { t with value := t.result } = .next u ∧ u.status = 0 ∧ u.result = 1) ∧
    (∃ t u, exec (.getSigned width lsb) s = .next t ∧ t.status = 0 ∧
      exec (.fitsSigned width) { t with value := t.result } = .next u ∧ u.status = 0 ∧ u.result = 1)

/-- R161: at the full word nothing is lost, whatever the word and the value. -/
def Obligations.FullWordFieldIsTheWord : Prop :=
  ∀ s : State,
    (∀ i ∈ [Instr.setUnsigned 64 0, .setSigned 64 0],
      exec i s = .next { s with status := 0, cause := 0, result := s.value }) ∧
    (∀ i ∈ [Instr.getUnsigned 64 0, .getSigned 64 0],
      exec i s = .next { s with status := 0, cause := 0, result := s.word })

/-- R162: inserting what the field already holds gives the word back. -/
def Obligations.ReinsertionIsTheIdentity : Prop :=
  ∀ (width lsb : Nat) (s : State), ValidField width lsb →
    (∃ t u, exec (.getUnsigned width lsb) s = .next t ∧ t.status = 0 ∧
      exec (.setUnsigned width lsb) { t with value := t.result } = .next u ∧ u.status = 0 ∧ u.result = s.word) ∧
    (∃ t u, exec (.getSigned width lsb) s = .next t ∧ t.status = 0 ∧
      exec (.setSigned width lsb) { t with value := t.result } = .next u ∧ u.status = 0 ∧ u.result = s.word)

/-- R163: fields that do not meet are independent, for each signedness of each operation. -/
def Obligations.DisjointFieldsAreIndependent : Prop :=
  ∀ (w1 l1 w2 l2 : Nat) (word : Word), ValidField w1 l1 → ValidField w2 l2 → l1 + w1 ≤ l2 ∨ l2 + w2 ≤ l1 →
    ∀ set1 ∈ [respSetUnsigned, respSetSigned], ∀ (v1 a : Word), set1 word w1 l1 v1 = .ok a →
      (∀ get ∈ [respGetUnsigned, respGetSigned], get a w2 l2 = get word w2 l2) ∧
      (∀ set2 ∈ [respSetUnsigned, respSetSigned], ∀ (v2 b : Word), set2 a w2 l2 v2 = .ok b →
        ∃ c, set2 word w2 l2 v2 = .ok c ∧ set1 c w1 l1 v1 = .ok b)

/-- R165: the last insertion into a field wins; into another, overlapping or not, an insertion works on the word it is
given. -/
def Obligations.LastInsertionWins : Prop :=
  ∀ (w l : Nat) (word v1 v2 a : Word), ∀ set1 ∈ [respSetUnsigned, respSetSigned],
    ∀ set2 ∈ [respSetUnsigned, respSetSigned], set1 word w l v1 = .ok a →
      set2 a w l v2 = set2 word w l v2 ∧
      ∀ (w' l' : Nat) (b : Word), set2 a w' l' v2 = .ok b → b = insertField a w' l' v2

/-! ### The host's side: scripts and instances -/

/-- 60_exceptions.md R186, R177; 93_implementation_defined.md U2, U13: what a host does with each response to the request a
script step issues. -/
def Obligations.HostBindsOkAndFaultsOnFatal : Prop :=
  ∀ (st : ScriptStep) (h : HostRun) (w v : Word),
    readOperand h.bindings st.word = some w → readOperand h.bindings st.value = some v →
    ∃ unit : State, unit.request = ⟨ctlOp st.ctl, ctlWidth st.ctl, ctlLsb st.ctl, w, v⟩ ∧ unit.Settled ∧
      hostStep st h =
        match respond unit.request with
        | .ok r => .next ⟨unit, h.bindings ++ [some r]⟩
        | .overflow => .next ⟨unit, h.bindings ++ [none]⟩
        | .fatal c => .fault (.contractViolation c)

/-- 70_reset_and_hazards.md R207: a run that completed issued every request; a run that failed did so at a FATAL response to a
request all before which completed; and a request reached with its operands bound ends the run if it is answered FATAL,
whatever stands after it in the script, and does not end it if it is answered otherwise. Of the host after a failed run
only the bindings are stated: R207 says nothing of the ports (notes/assumptions/12.md). -/
def Obligations.RunEndsAtTheFirstFatal : Prop :=
  ∀ (steps : List ScriptStep) (h : HostRun),
    ((runScript steps h).ending = .completed →
      (runScript steps h).host.bindings.length = h.bindings.length + steps.length) ∧
    (∀ f, (runScript steps h).ending = .failed f →
      ∃ before last after h' w v c, steps = before ++ last :: after ∧ runScript before h = ⟨h', .completed⟩ ∧
        readOperand h'.bindings last.word = some w ∧ readOperand h'.bindings last.value = some v ∧
        respond ⟨ctlOp last.ctl, ctlWidth last.ctl, ctlLsb last.ctl, w, v⟩ = .fatal c ∧ f = .contractViolation c ∧
        (runScript steps h).host.bindings = h'.bindings) ∧
    ∀ before last after h' w v, steps = before ++ last :: after → runScript before h = ⟨h', .completed⟩ →
      readOperand h'.bindings last.word = some w → readOperand h'.bindings last.value = some v →
      match respond ⟨ctlOp last.ctl, ctlWidth last.ctl, ctlLsb last.ctl, w, v⟩ with
      | .fatal c => (runScript steps h).ending = .failed (.contractViolation c) ∧
          (runScript steps h).host.bindings = h'.bindings
      | .ok _ | .overflow => ∃ h'', runScript (before ++ [last]) h = ⟨h'', .completed⟩

/-- R207, R186 (b): going on after a run is the run of the longer script; a failure is never cleared. -/
def Obligations.ContinuingARunIsTheLongerRun : Prop :=
  ∀ (first more : List ScriptStep) (h : HostRun),
    runScript (first ++ more) h = continueRun more (runScript first h) ∧
    ∀ f, (runScript first h).ending = .failed f → runScript (first ++ more) h = runScript first h

/-- 70_reset_and_hazards.md R200, R201, R204: a script binds the same results and ends the same way whatever stood on the
block's ports before it; nothing has to be initialised. -/
def Obligations.RunDoesNotDependOnTheBlocksPast : Prop :=
  ∀ (steps : List ScriptStep) (s t : State),
    (runScript steps (startRun s)).ending = (runScript steps (startRun t)).ending ∧
    (runScript steps (startRun s)).host.bindings = (runScript steps (startRun t)).host.bindings

/-- 20_memory.md R51, 60_exceptions.md R192: instance `k` answers a request as the one function does, and no other instance
is touched. -/
def Obligations.InstancesShareNothing : Prop :=
  ∀ (k : Nat) (r : Request) (units : List State), k < units.length →
    ∃ after, serveInstance k r units = .next after ∧ after.length = units.length ∧
      (∃ unit, after[k]? = some unit ∧ unit.request = r ∧ unit.sample = some (respond r)) ∧
      ∀ j, j ≠ k → after[j]? = units[j]?
end

