-- ==== Sys2Proof/Laws/Decode.lean ====
section
/-! SUPPORT. The fields of an assembled control word, and the decoder on each operation code. -/

namespace Sys2Proof

variable (op : BitVec 4) (width lsb : BitVec 7)

/-- A control word is the weighted sum of its three fields. -/
theorem assembleCtl_toNat :
    (assembleCtl op width lsb).toNat = lsb.toNat * 2048 + width.toNat * 16 + op.toNat := by
  simp only [assembleCtl, BitVec.toNat_append]
  have ho := op.isLt
  have hw := width.isLt
  rw [← Nat.shiftLeft_add_eq_or_of_lt ho, ← Nat.shiftLeft_add_eq_or_of_lt hw, Nat.shiftLeft_eq, Nat.shiftLeft_eq]
  omega

theorem ctlOp_toNat (c : Ctl) : (ctlOp c).toNat = c.toNat % 16 := by
  simp [ctlOp, BitVec.extractLsb'_toNat]

theorem ctlWidth_toNat (c : Ctl) : (ctlWidth c).toNat = c.toNat / 16 % 128 := by
  simp [ctlWidth, BitVec.extractLsb'_toNat, Nat.shiftRight_eq_div_pow]

theorem ctlLsb_toNat (c : Ctl) : (ctlLsb c).toNat = c.toNat / 2048 := by
  simp only [ctlLsb, BitVec.extractLsb'_toNat, Nat.shiftRight_eq_div_pow]
  have := c.isLt
  omega

@[simp] theorem ctlOp_assembleCtl : ctlOp (assembleCtl op width lsb) = op := by
  apply BitVec.eq_of_toNat_eq
  rw [ctlOp_toNat, assembleCtl_toNat]
  have := op.isLt
  omega

@[simp] theorem ctlWidth_assembleCtl : ctlWidth (assembleCtl op width lsb) = width := by
  apply BitVec.eq_of_toNat_eq
  rw [ctlWidth_toNat, assembleCtl_toNat]
  have := op.isLt
  have := width.isLt
  omega

@[simp] theorem ctlLsb_assembleCtl : ctlLsb (assembleCtl op width lsb) = lsb := by
  apply BitVec.eq_of_toNat_eq
  rw [ctlLsb_toNat, assembleCtl_toNat]
  have := op.isLt
  have := width.isLt
  omega

/-- The decoder looks at the three fields and at nothing else. -/
theorem decode_assembleCtl : decode (assembleCtl op width lsb) = decodeFields op width lsb := by
  simp [decode]

/-- Every 4-bit code is one of sixteen: the case split over `op`. -/
theorem op_cases : op = 0 ∨ op = 1 ∨ op = 2 ∨ op = 3 ∨ op = 4 ∨ op = 5 ∨ op = 6 ∨ op = 7 ∨ op = 8 ∨ op = 9 ∨ op = 10 ∨
    op = 11 ∨ op = 12 ∨ op = 13 ∨ op = 14 ∨ op = 15 := by
  revert op
  decide

/-- A control word is its three fields and nothing more. -/
theorem assembleCtl_fields (c : Ctl) : assembleCtl (ctlOp c) (ctlWidth c) (ctlLsb c) = c := by
  apply BitVec.eq_of_toNat_eq
  rw [assembleCtl_toNat, ctlOp_toNat, ctlWidth_toNat, ctlLsb_toNat]
  omega

/-- A row of the opcode table claims the control words whose low four bits are its pattern. -/
theorem accepts_iff (c : Ctl) : ∀ row ∈ opTable, row.accepts c = true ↔ c.toNat % 16 = row.pattern.toNat := by
  have masked : ∀ k : Ctl, c &&& 0x0000F = k ↔ c.toNat % 16 = k.toNat := fun k => by
    rw [← BitVec.toNat_inj, BitVec.toNat_and, show (0x0000F : Ctl).toNat = 2 ^ 4 - 1 from rfl,
      Nat.and_two_pow_sub_one_eq_mod]
  have rows : ∀ row ∈ opTable, row.mask = 0x0000F := by decide
  intro row hr
  rw [OpRow.accepts, rows row hr, beq_iff_eq, masked]

/-- A port carries a value that fits it unchanged. -/
theorem portBits_toNat {n : Nat} (h : fitsNarrowPort n = true) : (portBits (some n)).toNat = n := by
  simp only [fitsNarrowPort, Config.narrowPortLimit, decide_eq_true_eq] at h
  simp [portBits]
  omega

/-- A port value always fits the port. -/
@[simp] theorem fitsNarrowPort_toNat (b : BitVec 7) : fitsNarrowPort b.toNat = true := by
  have := b.isLt
  simp only [fitsNarrowPort, Config.narrowPortLimit, decide_eq_true_eq]
  omega

/-- The bits of a port's own value are the port. -/
@[simp] theorem portBits_some_toNat (b : BitVec 7) : portBits (some b.toNat) = b := by simp [portBits]

@[simp] theorem portBits_none : portBits none = 0 := rfl

end Sys2Proof
end

