-- ==== Sys2Proof/Laws/State.lean ====
section
/-! SUPPORT. The fields of the state under each update of it: one lemma a field, so that no proof unfolds an update. -/

namespace Sys2Proof.Machine

variable (s : State) (r : Response) (q : Request) (c : Ctl)

/-! ### `putResponse` writes the three response ports -/

@[simp] theorem putResponse_op : (s.putResponse r).op = s.op := rfl
@[simp] theorem putResponse_width : (s.putResponse r).width = s.width := rfl
@[simp] theorem putResponse_lsb : (s.putResponse r).lsb = s.lsb := rfl
@[simp] theorem putResponse_word : (s.putResponse r).word = s.word := rfl
@[simp] theorem putResponse_value : (s.putResponse r).value = s.value := rfl
@[simp] theorem putResponse_status : (s.putResponse r).status = r.statusCode := rfl
@[simp] theorem putResponse_cause : (s.putResponse r).cause = r.causeCode := rfl
@[simp] theorem putResponse_result : (s.putResponse r).result = r.resultBits := rfl
@[simp] theorem putResponse_request : (s.putResponse r).request = s.request := rfl
@[simp] theorem putResponse_ctl : (s.putResponse r).ctl = s.ctl := rfl
@[simp] theorem putResponse_putResponse (r' : Response) : (s.putResponse r).putResponse r' = s.putResponse r' := rfl

/-! ### `present` drives the five request ports -/

@[simp] theorem present_op : (s.present q).op = q.op := rfl
@[simp] theorem present_width : (s.present q).width = q.width := rfl
@[simp] theorem present_lsb : (s.present q).lsb = q.lsb := rfl
@[simp] theorem present_word : (s.present q).word = q.word := rfl
@[simp] theorem present_value : (s.present q).value = q.value := rfl
@[simp] theorem present_status : (s.present q).status = s.status := rfl
@[simp] theorem present_cause : (s.present q).cause = s.cause := rfl
@[simp] theorem present_result : (s.present q).result = s.result := rfl
@[simp] theorem present_request : (s.present q).request = q := rfl
@[simp] theorem putResponse_present : (s.putResponse r).present q = (s.present q).putResponse r := rfl

/-! ### `driveCtl` drives the three narrow ports -/

@[simp] theorem driveCtl_op : (s.driveCtl c).op = ctlOp c := rfl
@[simp] theorem driveCtl_width : (s.driveCtl c).width = ctlWidth c := rfl
@[simp] theorem driveCtl_lsb : (s.driveCtl c).lsb = ctlLsb c := rfl
@[simp] theorem driveCtl_word : (s.driveCtl c).word = s.word := rfl
@[simp] theorem driveCtl_value : (s.driveCtl c).value = s.value := rfl
@[simp] theorem driveCtl_status : (s.driveCtl c).status = s.status := rfl
@[simp] theorem driveCtl_cause : (s.driveCtl c).cause = s.cause := rfl
@[simp] theorem driveCtl_result : (s.driveCtl c).result = s.result := rfl

/-! ### The request as a view of the state -/

@[simp] theorem request_op : s.request.op = s.op := rfl
@[simp] theorem request_width : s.request.width = s.width := rfl
@[simp] theorem request_lsb : s.request.lsb = s.lsb := rfl
@[simp] theorem request_word : s.request.word = s.word := rfl
@[simp] theorem request_value : s.request.value = s.value := rfl

/-! ### The codes of a response -/

variable (w : Word) (k : FatalCause)

@[simp] theorem statusCode_ok : (Response.ok w).statusCode = 0 := rfl
@[simp] theorem causeCode_ok : (Response.ok w).causeCode = 0 := rfl
@[simp] theorem resultBits_ok : (Response.ok w).resultBits = w := rfl
@[simp] theorem statusCode_overflow : (Response.overflow).statusCode = 1 := rfl
@[simp] theorem causeCode_overflow : (Response.overflow).causeCode = 0 := rfl
@[simp] theorem resultBits_overflow : (Response.overflow).resultBits = 0 := rfl
@[simp] theorem statusCode_fatal : (Response.fatal k).statusCode = 2 := rfl
@[simp] theorem causeCode_fatal : (Response.fatal k).causeCode = k.code := rfl
@[simp] theorem resultBits_fatal : (Response.fatal k).resultBits = 0 := rfl
@[simp] theorem code_capacity : FatalCause.capacity.code = 1 := rfl
@[simp] theorem code_widthZero : FatalCause.widthZero.code = 2 := rfl
@[simp] theorem code_illegalOp : FatalCause.illegalOp.code = 3 := rfl

/-- `answer` always gives a next state: the one with the response on its ports. -/
@[simp] theorem answer_eq_next : s.answer r = .next (s.putResponse r) := rfl

/-- Putting the response that already stands there changes nothing. -/
theorem putResponse_eq_iff (t : State) :
    s.putResponse r = t ↔ s.request = t.request ∧ t.status = r.statusCode ∧ t.cause = r.causeCode ∧
      t.result = r.resultBits := by
  cases s; cases t
  simp only [State.putResponse, State.request, State.mk.injEq, Request.mk.injEq]
  constructor
  · rintro ⟨rfl, rfl, rfl, rfl, rfl, rfl, rfl, rfl⟩; simp
  · rintro ⟨⟨rfl, rfl, rfl, rfl, rfl⟩, rfl, rfl, rfl⟩; simp

/-- A host that samples the ports reads back the response the block put there. -/
@[simp] theorem putResponse_sample : (s.putResponse r).sample = some r := by
  rcases r with r | _ | (_ | _ | _) <;> rfl

end Sys2Proof.Machine
end

