-- ==== Sys2Proof/Laws/Dispatch.lean ====
section
/-! SUPPORT. What running one instruction can do, said once: it answers. And the checks in front of an answer. -/

namespace Sys2Proof.Machine

/-! ### The checks -/

@[simp] theorem guarded_none (r : Response) : guarded none r = r := rfl

@[simp] theorem guarded_some (c : FatalCause) (r : Response) : guarded (some c) r = .fatal c := rfl

theorem fieldFault_zero (lsb : Nat) : fieldFault 0 lsb = some .widthZero := rfl

theorem fieldFault_capacity {width lsb : Nat} (h0 : 1 ≤ width) (h : 64 < width + lsb) :
    fieldFault width lsb = some .capacity := by
  simp [fieldFault, show width ≠ 0 by omega, show 64 < width + lsb from h]

theorem fieldFault_valid {width lsb : Nat} (h : ValidField width lsb) : fieldFault width lsb = none := by
  simp only [ValidField, Config.cap] at h
  simp [fieldFault, show width ≠ 0 by omega, show ¬ 64 < width + lsb by omega]

/-- The descriptor check passes exactly on valid descriptors. -/
theorem fieldFault_eq_none_iff (width lsb : Nat) : fieldFault width lsb = none ↔ ValidField width lsb := by
  refine ⟨fun h => ?_, fieldFault_valid⟩
  unfold fieldFault at h
  split at h
  · cases h
  · split at h
    · cases h
    · exact ⟨by omega, by omega⟩

theorem fitFault_zero : fitFault 0 = some .widthZero := rfl

theorem fitFault_capacity {width : Nat} (h : 64 < width) : fitFault width = some .capacity := by
  simp [fitFault, show width ≠ 0 by omega, h]

theorem fitFault_valid {width : Nat} (h0 : 1 ≤ width) (h : width ≤ 64) : fitFault width = none := by
  simp [fitFault, show width ≠ 0 by omega, show ¬ 64 < width by omega]

/-! ### The ports each operation reads, from the opcode table -/

@[simp] theorem portsRead_0 : portsRead 0#4 = [.value, .width] := by decide
@[simp] theorem portsRead_1 : portsRead 1#4 = [.value, .width] := by decide
@[simp] theorem portsRead_2 : portsRead 2#4 = [.width] := by decide
@[simp] theorem portsRead_3 : portsRead 3#4 = [.width] := by decide
@[simp] theorem portsRead_4 : portsRead 4#4 = [.width] := by decide
@[simp] theorem portsRead_5 : portsRead 5#4 = [.word, .width, .lsb] := by decide
@[simp] theorem portsRead_6 : portsRead 6#4 = [.word, .width, .lsb] := by decide
@[simp] theorem portsRead_7 : portsRead 7#4 = [.word, .width, .lsb, .value] := by decide
@[simp] theorem portsRead_8 : portsRead 8#4 = [.word, .width, .lsb, .value] := by decide
@[simp] theorem portsRead_9 : portsRead 9#4 = [] := by decide
@[simp] theorem portsRead_10 : portsRead 10#4 = [] := by decide
@[simp] theorem portsRead_11 : portsRead 11#4 = [] := by decide
@[simp] theorem portsRead_12 : portsRead 12#4 = [] := by decide
@[simp] theorem portsRead_13 : portsRead 13#4 = [] := by decide
@[simp] theorem portsRead_14 : portsRead 14#4 = [] := by decide
@[simp] theorem portsRead_15 : portsRead 15#4 = [] := by decide

/-! ### Each instruction's answer -/

variable (width lsb : Nat) (s : State)

@[simp] theorem exec_fitsSigned :
    exec (.fitsSigned width) s = .next (s.putResponse (respFitsSigned s.value width)) := rfl
@[simp] theorem exec_fitsUnsigned :
    exec (.fitsUnsigned width) s = .next (s.putResponse (respFitsUnsigned s.value width)) := rfl
@[simp] theorem exec_unsignedMax : exec (.unsignedMax width) s = .next (s.putResponse (respUnsignedMax width)) := rfl
@[simp] theorem exec_signedMax : exec (.signedMax width) s = .next (s.putResponse (respSignedMax width)) := rfl
@[simp] theorem exec_signedMin : exec (.signedMin width) s = .next (s.putResponse (respSignedMin width)) := rfl
@[simp] theorem exec_getUnsigned :
    exec (.getUnsigned width lsb) s = .next (s.putResponse (respGetUnsigned s.word width lsb)) := rfl
@[simp] theorem exec_getSigned :
    exec (.getSigned width lsb) s = .next (s.putResponse (respGetSigned s.word width lsb)) := rfl
@[simp] theorem exec_setUnsigned :
    exec (.setUnsigned width lsb) s = .next (s.putResponse (respSetUnsigned s.word width lsb s.value)) := rfl
@[simp] theorem exec_setSigned :
    exec (.setSigned width lsb) s = .next (s.putResponse (respSetSigned s.word width lsb s.value)) := rfl
@[simp] theorem exec_reserved9 : exec .reserved9 s = .next (s.putResponse respIllegalOp) := rfl
@[simp] theorem exec_reserved10 : exec .reserved10 s = .next (s.putResponse respIllegalOp) := rfl
@[simp] theorem exec_reserved11 : exec .reserved11 s = .next (s.putResponse respIllegalOp) := rfl
@[simp] theorem exec_reserved12 : exec .reserved12 s = .next (s.putResponse respIllegalOp) := rfl
@[simp] theorem exec_reserved13 : exec .reserved13 s = .next (s.putResponse respIllegalOp) := rfl
@[simp] theorem exec_reserved14 : exec .reserved14 s = .next (s.putResponse respIllegalOp) := rfl
@[simp] theorem exec_reserved15 : exec .reserved15 s = .next (s.putResponse respIllegalOp) := rfl

/-- Everything an instruction can do: put a response on the response ports. It never faults and never refuses. -/
theorem exec_answers (i : Instr) : ∃ r, exec i s = .next (s.putResponse r) := by
  cases i <;> exact ⟨_, rfl⟩

/-- Everything a step can do. -/
theorem step_answers : ∃ r, step s = .next (s.putResponse r) := exec_answers s _

end Sys2Proof.Machine
end

