-- ==== Sys2Proof/Laws/Ops.lean ====
section
/-! SUPPORT. The primitives of the spec against `BitVec`, and the bits of every mask. -/

namespace Sys2Proof.Machine

/-! ### Value domains and shifts -/

theorem s64_eq_toInt (x : Word) : s64 x = x.toInt := by
  have h : x.getLsbD 63 = x.msb := by simp [BitVec.msb_eq_getLsbD_last]
  rw [BitVec.toInt_eq_msb_cond, s64, h]
  norm_num

@[simp] theorem enc64_s64 (x : Word) : enc64 (s64 x) = x := by
  rw [s64_eq_toInt, enc64, BitVec.ofInt_toInt]

theorem shl64_eq (x : Word) (k : Nat) : shl64 x k = x <<< k := by
  unfold shl64
  split
  · apply BitVec.eq_of_toNat_eq
    simp [BitVec.toNat_shiftLeft, Nat.shiftLeft_eq]
  · rw [BitVec.shiftLeft_eq_zero (by omega)]
    rfl

theorem lshr64_eq (x : Word) (k : Nat) : lshr64 x k = x >>> k := by
  unfold lshr64
  split
  · apply BitVec.eq_of_toNat_eq
    rw [BitVec.toNat_ofNat, BitVec.toNat_ushiftRight, Nat.shiftRight_eq_div_pow]
    exact Nat.mod_eq_of_lt (lt_of_le_of_lt (Nat.div_le_self _ _) x.isLt)
  · rw [BitVec.ushiftRight_eq_zero (by omega)]
    rfl

theorem ashr64_eq (x : Word) (k : Nat) : ashr64 x k = x.sshiftRight k := by
  unfold ashr64
  split
  · rw [s64_eq_toInt, enc64, BitVec.sshiftRight, Int.shiftRight_eq_div_pow]
    norm_num
  · apply BitVec.eq_of_getLsbD_eq
    intro p hp
    rw [BitVec.getLsbD_sshiftRight]
    have h : x.getLsbD 63 = x.msb := by simp [BitVec.msb_eq_getLsbD_last]
    rw [h]
    have hk : ¬ (k + p < 64) := by omega
    have hp' : ¬ (64 ≤ p) := by omega
    cases x.msb <;> simp [hk, hp']
    have : (18446744073709551615#64) = BitVec.allOnes 64 := by decide
    rw [this, BitVec.getLsbD_allOnes]
    simpa using hp

/-! ### The bits of the masks -/

@[simp] theorem ones_getLsbD (k p : Nat) : (ones k).getLsbD p = (decide (p < 64) && decide (p < k)) := by
  rw [ones, BitVec.getLsbD_ofNat, Nat.testBit_two_pow_sub_one]

@[simp] theorem ones_getElem (k : Nat) {p : Nat} (h : p < 64) : (ones k)[p] = decide (p < k) := by
  rw [← BitVec.getLsbD_eq_getElem, ones_getLsbD]
  simp [h]

theorem ones_toNat {k : Nat} (h : k ≤ 64) : (ones k).toNat = 2 ^ k - 1 := by
  have : 2 ^ k ≤ 2 ^ 64 := Nat.pow_le_pow_right (by omega) h
  have : 0 < 2 ^ k := Nat.two_pow_pos k
  simp only [ones, BitVec.toNat_ofNat]
  omega

theorem umax_eq {w : Nat} (h : w ≤ 64) : umax w = 2 ^ w - 1 := by
  unfold umax
  split
  · rfl
  · rw [show w = 64 by omega]

theorem umax_lt (w : Nat) : umax w < 2 ^ 64 := by
  unfold umax
  split
  · have : 2 ^ w ≤ 2 ^ 63 := Nat.pow_le_pow_right (by omega) (by omega)
    omega
  · omega

theorem umaxBits_eq_ones (w : Nat) : umaxBits w = ones (min w 64) := by
  unfold umaxBits umax ones
  split
  · rw [Nat.min_eq_left (by omega)]
  · rw [Nat.min_eq_right (by omega)]

@[simp] theorem umaxBits_getLsbD (w p : Nat) : (umaxBits w).getLsbD p = (decide (p < 64) && decide (p < w)) := by
  rw [umaxBits_eq_ones, ones_getLsbD]
  by_cases h : p < 64 <;> simp [h]

@[simp] theorem umaxBits_getElem (k : Nat) {p : Nat} (h : p < 64) : (umaxBits k)[p] = decide (p < k) := by
  rw [← BitVec.getLsbD_eq_getElem, umaxBits_getLsbD]
  simp [h]

@[simp] theorem umaxBits_toNat (w : Nat) : (umaxBits w).toNat = umax w := by
  have := umax_lt w
  simp only [umaxBits, BitVec.toNat_ofNat]
  omega

@[simp] theorem signmask_getLsbD (w p : Nat) : (signmask w).getLsbD p = (decide (p < 64) && decide (w ≤ p)) := by
  rw [signmask, BitVec.getLsbD_not, ones_getLsbD]
  by_cases h : p < 64 <;> by_cases h' : p < w <;> simp [h, h']; omega

@[simp] theorem signmask_getElem (k : Nat) {p : Nat} (h : p < 64) : (signmask k)[p] = decide (k ≤ p) := by
  rw [← BitVec.getLsbD_eq_getElem, signmask_getLsbD]
  simp [h]

@[simp] theorem fieldmask_getLsbD (w l p : Nat) :
    (fieldmask w l).getLsbD p = (decide (p < 64) && decide (l ≤ p) && decide (p < l + w)) := by
  rw [fieldmask, shl64_eq, BitVec.getLsbD_shiftLeft, umaxBits_getLsbD]
  by_cases h : p < 64 <;> by_cases h' : l ≤ p <;> by_cases h'' : p < l + w <;> simp [h, h', h''] <;> omega

@[simp] theorem fieldmask_getElem (w l : Nat) {p : Nat} (h : p < 64) :
    (fieldmask w l)[p] = (decide (l ≤ p) && decide (p < l + w)) := by
  rw [← BitVec.getLsbD_eq_getElem, fieldmask_getLsbD]
  simp [h]

theorem sextw_getLsbD (v : Word) {w p : Nat} (h1 : 1 ≤ w) (h2 : w ≤ 64) (hp : p < 64) :
    (sextw v w).getLsbD p = v.getLsbD (min p (w - 1)) := by
  rw [sextw, ashr64_eq, shl64_eq, BitVec.getLsbD_sshiftRight, BitVec.getLsbD_shiftLeft, BitVec.msb_eq_getLsbD_last,
    BitVec.getLsbD_shiftLeft]
  simp only [Config.cap]
  by_cases h : p < w
  · simp (disch := omega) only [Nat.min_eq_left]
    have e : 64 - w + p - (64 - w) = p := by omega
    simp [show 64 - w + p < 64 by omega, hp, e]
  · simp (disch := omega) only [Nat.min_eq_right]
    have e : 63 - (64 - w) = w - 1 := by omega
    simp [show ¬ 64 - w + p < 64 by omega, e, show ¬ 64 ≤ p by omega, show ¬ 63 < 64 - w by omega]

/-! ### The extremal values, one formula for the legal widths -/

theorem smax_eq {w : Nat} (h1 : 1 ≤ w) (h2 : w ≤ 64) : smax w = 2 ^ (w - 1) - 1 := by
  unfold smax
  split
  · omega
  · split
    · rfl
    · rw [show w = 64 by omega]

theorem smin_eq {w : Nat} (h1 : 1 ≤ w) (h2 : w ≤ 64) : smin w = -2 ^ (w - 1) := by
  unfold smin
  split
  · omega
  · split
    · rfl
    · rw [show w = 64 by omega]

/-! ### Integers that fit 64 bits signed are read back -/

theorem enc64_toInt {n : Int} (h1 : -2 ^ 63 ≤ n) (h2 : n < 2 ^ 63) : (enc64 n).toInt = n := by
  rw [enc64, BitVec.toInt_ofInt, Int.bmod_eq_of_le_mul_two] <;> omega

theorem two_pow_le_two_pow_63 {k : Nat} (h : k ≤ 63) : (2 : Int) ^ k ≤ 2 ^ 63 :=
  pow_le_pow_right₀ (by norm_num) h

theorem smax_range (w : Nat) : -2 ^ 63 ≤ smax w ∧ smax w < 2 ^ 63 := by
  have hp : (0 : Int) < 2 ^ (w - 1) := by positivity
  unfold smax
  split
  · omega
  · split
    · have := two_pow_le_two_pow_63 (k := w - 1) (by omega)
      omega
    · omega

theorem smin_range (w : Nat) : -2 ^ 63 ≤ smin w ∧ smin w < 2 ^ 63 := by
  have hp : (0 : Int) < 2 ^ (w - 1) := by positivity
  unfold smin
  split
  · omega
  · split
    · have := two_pow_le_two_pow_63 (k := w - 1) (by omega)
      omega
    · omega

@[simp] theorem enc64_smax_toInt (w : Nat) : (enc64 (smax w)).toInt = smax w :=
  enc64_toInt (smax_range w).1 (smax_range w).2

@[simp] theorem enc64_smin_toInt (w : Nat) : (enc64 (smin w)).toInt = smin w :=
  enc64_toInt (smin_range w).1 (smin_range w).2

/-- The signed extremes as bit patterns (R101, R102). -/
theorem enc64_two_pow_sub_one (k : Nat) : enc64 (2 ^ k - 1) = ones k := by
  have h : (2 : Int) ^ k - 1 = ((2 ^ k - 1 : Nat) : Int) := by
    push_cast [Nat.two_pow_pos k]
    rfl
  rw [h, enc64, BitVec.ofInt_natCast, ones]

theorem enc64_neg_two_pow (k : Nat) : enc64 (-2 ^ k) = ~~~ ones k := by
  have h : (-2 ^ k : Int) = Int.negSucc (2 ^ k - 1) := by
    rw [Int.negSucc_eq]
    push_cast [Nat.two_pow_pos k]
    ring
  rw [h, enc64, BitVec.ofInt_negSucc_eq_not_ofNat, ones]

end Sys2Proof.Machine
end

