-- ==== Sys2Proof/Laws/Fields.lean ====
section
/-! SUPPORT. The bits and the numeric value of what extraction, sign extension and insertion compute, and the fit tests
as facts about bits. -/

namespace Sys2Proof.Machine

/-! ### Sign extension -/

/-- Sign extension from `w` bits is `signExtend` of the low `w` bits. -/
theorem sextw_eq_signExtend (v : Word) {w : Nat} (h1 : 1 ≤ w) (h2 : w ≤ 64) :
    sextw v w = (v.setWidth w).signExtend 64 := by
  apply BitVec.eq_of_getLsbD_eq
  intro p hp
  rw [sextw_getLsbD v h1 h2 hp, BitVec.getLsbD_signExtend, BitVec.msb_eq_getLsbD_last, BitVec.getLsbD_setWidth,
    BitVec.getLsbD_setWidth]
  by_cases h : p < w
  · simp (disch := omega) [h, hp]
  · have : 0 < w := h1
    simp (disch := omega) [h, hp, this]

/-- The integer a two's-complement field of `w` bits stands for. -/
theorem setWidth_toInt (v : Word) {w : Nat} (h1 : 1 ≤ w) :
    (v.setWidth w).toInt =
      if v.toNat % 2 ^ w < 2 ^ (w - 1) then ((v.toNat % 2 ^ w : Nat) : Int) else ((v.toNat % 2 ^ w : Nat) : Int) - 2 ^ w := by
  obtain ⟨k, rfl⟩ : ∃ k, w = k + 1 := ⟨w - 1, by omega⟩
  rw [BitVec.toInt_eq_toNat_cond, BitVec.toNat_setWidth]
  have h : 2 * (v.toNat % 2 ^ (k + 1)) < 2 ^ (k + 1) ↔ v.toNat % 2 ^ (k + 1) < 2 ^ (k + 1 - 1) := by
    rw [Nat.add_sub_cancel, pow_succ]
    omega
  simp only [h]
  push_cast
  rfl

theorem sextw_toInt (v : Word) {w : Nat} (h1 : 1 ≤ w) (h2 : w ≤ 64) :
    (sextw v w).toInt =
      if v.toNat % 2 ^ w < 2 ^ (w - 1) then ((v.toNat % 2 ^ w : Nat) : Int) else ((v.toNat % 2 ^ w : Nat) : Int) - 2 ^ w := by
  rw [sextw_eq_signExtend v h1 h2, BitVec.toInt_signExtend_of_le h2, setWidth_toInt v h1]

/-! ### The fit tests -/

theorem fitsU_iff_bits (v : Word) {w : Nat} (h : w ≤ 64) :
    v.toNat ≤ umax w ↔ ∀ p, w ≤ p → v.getLsbD p = false := by
  have hp : 0 < 2 ^ w := Nat.two_pow_pos w
  rw [umax_eq h]
  constructor
  · intro hv p hwp
    exact Nat.testBit_lt_two_pow (lt_of_lt_of_le (by omega) (Nat.pow_le_pow_right (by omega) hwp))
  · intro hb
    have : v.toNat < 2 ^ w := Nat.lt_pow_two_of_testBit _ fun i hi => hb i hi
    omega

/-- A value fits `w` bits signed exactly when sign extension from `w` bits gives it back. -/
theorem fitsS_iff_sextw (v : Word) {w : Nat} (h1 : 1 ≤ w) (h2 : w ≤ 64) :
    sextw v w = v ↔ smin w ≤ s64 v ∧ s64 v ≤ smax w := by
  obtain ⟨k, rfl⟩ : ∃ k, w = k + 1 := ⟨w - 1, by omega⟩
  have hd : ((2 ^ (k + 1) : Nat) : Int) ∣ ((2 ^ 64 : Nat) : Int) := by exact_mod_cast pow_dvd_pow 2 h2
  have hbmod : (v.setWidth (k + 1)).toInt = Int.bmod v.toInt (2 ^ (k + 1)) := by
    rw [BitVec.toInt_setWidth, BitVec.toInt_eq_toNat_bmod, Int.bmod_bmod_of_dvd]
    exact_mod_cast hd
  rw [smin_eq h1 h2, smax_eq h1 h2, s64_eq_toInt, ← BitVec.toInt_inj, sextw_eq_signExtend v h1 h2,
    BitVec.toInt_signExtend_of_le h2, Nat.add_sub_cancel, hbmod]
  have hlo := BitVec.two_mul_toInt_lt (x := v.setWidth (k + 1))
  have hhi := BitVec.le_two_mul_toInt (x := v.setWidth (k + 1))
  have hpow : (2 : Int) ^ (k + 1) = 2 ^ k * 2 := pow_succ 2 k
  rw [hbmod] at hlo hhi
  constructor
  · intro h
    rw [h] at hlo hhi
    omega
  · rintro ⟨hl, hh⟩
    apply Int.bmod_eq_of_le_mul_two <;> push_cast <;> omega

theorem fitsS_iff_bits (v : Word) {w : Nat} (h1 : 1 ≤ w) (h2 : w ≤ 64) :
    (smin w ≤ s64 v ∧ s64 v ≤ smax w) ↔ ∀ p, w ≤ p → p < 64 → v.getLsbD p = v.getLsbD (w - 1) := by
  rw [← fitsS_iff_sextw v h1 h2]
  constructor
  · intro h p hw hp
    rw [← h, sextw_getLsbD v h1 h2 hp, sextw_getLsbD v h1 h2 (by omega)]
    simp (disch := omega)
  · intro h
    apply BitVec.eq_of_getLsbD_eq
    intro p hp
    rw [sextw_getLsbD v h1 h2 hp]
    by_cases hpw : p < w
    · rw [Nat.min_eq_left (by omega)]
    · rw [Nat.min_eq_right (by omega), h p (by omega) hp]

/-! ### Extraction -/

theorem extractU_getLsbD (word : Word) {w l : Nat} (h : ValidField w l) (p : Nat) :
    (extractU word w l).getLsbD p = (decide (p < w) && word.getLsbD (l + p)) := by
  simp only [ValidField, Config.cap] at h
  rw [extractU, lshr64_eq, shl64_eq, BitVec.getLsbD_ushiftRight, BitVec.getLsbD_shiftLeft]
  simp only [Config.cap]
  by_cases hp : p < w
  · have e : 64 - w + p - (64 - w - l) = l + p := by omega
    simp [hp, e, show 64 - w + p < 64 by omega, show ¬ 64 - w + p < 64 - w - l by omega]
  · simp [hp, show ¬ 64 - w + p < 64 by omega]

theorem extractS_getLsbD (word : Word) {w l p : Nat} (h : ValidField w l) (hp : p < 64) :
    (extractS word w l).getLsbD p = word.getLsbD (l + min p (w - 1)) := by
  simp only [ValidField, Config.cap] at h
  rw [extractS, ashr64_eq, shl64_eq, BitVec.getLsbD_sshiftRight, BitVec.getLsbD_shiftLeft, BitVec.msb_eq_getLsbD_last,
    BitVec.getLsbD_shiftLeft]
  simp only [Config.cap]
  by_cases hpw : p < w
  · have e : 64 - w + p - (64 - w - l) = l + p := by omega
    simp (disch := omega) only [Nat.min_eq_left]
    simp [e, show 64 - w + p < 64 by omega, show ¬ 64 - w + p < 64 - w - l by omega, hp]
  · have e : 63 - (64 - w - l) = l + (w - 1) := by omega
    simp (disch := omega) only [Nat.min_eq_right]
    simp [e, show ¬ 64 - w + p < 64 by omega, show ¬ 63 < 64 - w - l by omega, hp]

/-- The signed extraction is the sign extension of the unsigned one. -/
theorem extractS_eq_sextw (word : Word) {w l : Nat} (h : ValidField w l) :
    extractS word w l = sextw (extractU word w l) w := by
  have h' := h
  simp only [ValidField, Config.cap] at h'
  apply BitVec.eq_of_getLsbD_eq
  intro p hp
  rw [extractS_getLsbD word h hp, sextw_getLsbD _ h'.1 (by omega) hp, extractU_getLsbD word h]
  simp
  omega

theorem extractU_eq_mask (word : Word) {w l : Nat} (h : ValidField w l) :
    extractU word w l = lshr64 word l &&& umaxBits w := by
  apply BitVec.eq_of_getLsbD_eq
  intro p hp
  rw [extractU_getLsbD word h, BitVec.getLsbD_and, lshr64_eq, BitVec.getLsbD_ushiftRight, umaxBits_getLsbD]
  simp [hp, Bool.and_comm]

theorem extractU_toNat (word : Word) {w l : Nat} (h : ValidField w l) :
    (extractU word w l).toNat = word.toNat / 2 ^ l % 2 ^ w := by
  apply Nat.eq_of_testBit_eq
  intro p
  rw [BitVec.testBit_toNat, extractU_getLsbD word h, Nat.testBit_mod_two_pow, Nat.testBit_div_two_pow, BitVec.testBit_toNat,
    Nat.add_comm]

/-! ### Insertion -/

theorem insertField_getLsbD (word value : Word) {w l p : Nat} (h : ValidField w l) (hp : p < 64) :
    (insertField word w l value).getLsbD p =
      if l ≤ p ∧ p < l + w then value.getLsbD (p - l) else word.getLsbD p := by
  simp only [ValidField, Config.cap] at h
  simp only [insertField, shl64_eq, BitVec.getLsbD_or, BitVec.getLsbD_and, BitVec.getLsbD_not, ones_getLsbD,
    BitVec.getLsbD_shiftLeft, umaxBits_getLsbD]
  by_cases h1 : l ≤ p <;> by_cases h2 : p < l + w
  · simp [h1, h2, hp, show p - l < w by omega, show p - l < 64 by omega, show ¬ p < l by omega]
  · simp [h1, h2, hp, show ¬ p - l < w by omega, show ¬ p < l by omega]
  · simp [h1, h2, hp, show p < l by omega]
  · omega

end Sys2Proof.Machine
end

