-- ==== Sys2Proof/Laws/PerInstr.lean ====
section
/-! SUPPORT. Facts about every instruction as syntax, one lemma a constructor. Family FieldsDecode: the operation code and the
port bits the encoder writes for a well-formed instruction are read back as that instruction. -/

namespace Sys2Proof.Laws.FieldsDecode

/-- The fields the encoder writes decode to the instruction they were written for. -/
def Statement (i : Instr) : Prop :=
  i.wellFormed = true → decodeFields (opcode i) (portBits (widthOperand i)) (portBits (lsbOperand i)) = i

theorem fitsSigned (width : Nat) : Statement (.fitsSigned width) := fun h => by
  simp [decodeFields, opcode, widthOperand, portBits_toNat h]

theorem fitsUnsigned (width : Nat) : Statement (.fitsUnsigned width) := fun h => by
  simp [decodeFields, opcode, widthOperand, portBits_toNat h]

theorem unsignedMax (width : Nat) : Statement (.unsignedMax width) := fun h => by
  simp [decodeFields, opcode, widthOperand, portBits_toNat h]

theorem signedMax (width : Nat) : Statement (.signedMax width) := fun h => by
  simp [decodeFields, opcode, widthOperand, portBits_toNat h]

theorem signedMin (width : Nat) : Statement (.signedMin width) := fun h => by
  simp [decodeFields, opcode, widthOperand, portBits_toNat h]

theorem getUnsigned (width lsb : Nat) : Statement (.getUnsigned width lsb) := fun h => by
  have h' := (Bool.and_eq_true _ _).mp h
  simp [decodeFields, opcode, widthOperand, lsbOperand, portBits_toNat h'.1, portBits_toNat h'.2]

theorem getSigned (width lsb : Nat) : Statement (.getSigned width lsb) := fun h => by
  have h' := (Bool.and_eq_true _ _).mp h
  simp [decodeFields, opcode, widthOperand, lsbOperand, portBits_toNat h'.1, portBits_toNat h'.2]

theorem setUnsigned (width lsb : Nat) : Statement (.setUnsigned width lsb) := fun h => by
  have h' := (Bool.and_eq_true _ _).mp h
  simp [decodeFields, opcode, widthOperand, lsbOperand, portBits_toNat h'.1, portBits_toNat h'.2]

theorem setSigned (width lsb : Nat) : Statement (.setSigned width lsb) := fun h => by
  have h' := (Bool.and_eq_true _ _).mp h
  simp [decodeFields, opcode, widthOperand, lsbOperand, portBits_toNat h'.1, portBits_toNat h'.2]

theorem reserved9 : Statement .reserved9 := fun _ => rfl

theorem reserved10 : Statement .reserved10 := fun _ => rfl

theorem reserved11 : Statement .reserved11 := fun _ => rfl

theorem reserved12 : Statement .reserved12 := fun _ => rfl

theorem reserved13 : Statement .reserved13 := fun _ => rfl

theorem reserved14 : Statement .reserved14 := fun _ => rfl

theorem reserved15 : Statement .reserved15 := fun _ => rfl

end Sys2Proof.Laws.FieldsDecode
end

