-- ==== Sys2Proof/Tests/Slice0.lean ====
section
/-! SUPPORT. The model's own tests. Every control word, operand and result is copied from spec/95_test_vectors.md (the vector's
id stands in each docstring), from a rule, or from a row of the opcode table; none is the model's own answer. -/

namespace Sys2Proof.Tests

open Sys2Proof.Machine

/-! ### Helpers -/

/-- A block with a request `(ctl, word, value)` on its ports. -/
def asked (c : Ctl) (word value : Word) : State :=
  State.reset.present ⟨ctlOp c, ctlWidth c, ctlLsb c, word, value⟩

/-- The three response ports after a step; none if it stopped. -/
def outputs : Host.Outcome State Fault Refusal → Option (BitVec 2 × BitVec 2 × Word)
  | .next t => some (t.status, t.cause, t.result)
  | .fault _ => none
  | .refused _ => none

/-- One step on a request. -/
def answerTo (c : Ctl) (word value : Word) : Option (BitVec 2 × BitVec 2 × Word) := outputs (step (asked c word value))

/-! ### WellFormed refuses an operand its port cannot carry (R61, R63) -/

theorem test_wellFormed_refuses_width_128 : (Instr.fitsSigned 128).wellFormed = false := by decide
theorem test_wellFormed_refuses_lsb_128 : (Instr.setSigned 1 128).wellFormed = false := by decide
theorem test_wellFormed_refuses_width_with_lsb : (Instr.getUnsigned 128 0).wellFormed = false := by decide
theorem test_wellFormed_accepts_port_limits : (Instr.getSigned 127 127).wellFormed = true := by decide
theorem test_encode_refuses_ill_formed : encode (.unsignedMax 128) = none := by decide

/-! ### Decoding: words written out as `lsb ++ width ++ op` from the rows' encodings -/

theorem test_decode_fitsSigned : decode 0b0000000_0000011_0000 = .fitsSigned 3 := by decide
theorem test_decode_fitsUnsigned : decode 0b1111111_0000101_0001 = .fitsUnsigned 5 := by decide
theorem test_decode_unsignedMax : decode 0b0000000_1000000_0010 = .unsignedMax 64 := by decide
theorem test_decode_signedMax : decode 0b1100100_0000011_0011 = .signedMax 3 := by decide
theorem test_decode_signedMin : decode 0b0000000_1111111_0100 = .signedMin 127 := by decide
theorem test_decode_getUnsigned : decode 0b0000010_0000110_0101 = .getUnsigned 6 2 := by decide
theorem test_decode_getSigned : decode 0b0111111_0000001_0110 = .getSigned 1 63 := by decide
theorem test_decode_setUnsigned : decode 0b0111011_0000101_0111 = .setUnsigned 5 59 := by decide
theorem test_decode_setSigned : decode 0b1000110_0000000_1000 = .setSigned 0 70 := by decide
theorem test_decode_reserved9 : decode 0b0000000_0000100_1001 = .reserved9 := by decide
theorem test_decode_reserved10 : decode 0b1000000_1000000_1010 = .reserved10 := by decide
theorem test_decode_reserved11 : decode 0b1111111_1111111_1011 = .reserved11 := by decide
theorem test_decode_reserved12 : decode 0b1111111_0000000_1100 = .reserved12 := by decide
theorem test_decode_reserved13 : decode 0b0000001_0000001_1101 = .reserved13 := by decide
theorem test_decode_reserved14 : decode 0b0000000_0000000_1110 = .reserved14 := by decide
theorem test_decode_reserved15 : decode 0b0000000_0000100_1111 = .reserved15 := by decide
/-- A bit above `ctl[17]` is refused by name. -/
theorem test_decode_refuses_bit_18 : decodeWord 0x40000 = .error .beyondCtl := by decide
theorem test_decodeTableWord_S12 : decodeTableWord 24 0x01065 = some (.getUnsigned 6 2) := by decide

/-! ### One step an instruction -/

/-- F2: `smin(3) - 1` does not fit. -/
theorem test_fitsSigned_F2 : answerTo 0x00030 0 0xFFFFFFFFFFFFFFFB = some (0, 0, 0) := by decide
/-- F10: one below `smin(63)`. -/
theorem test_fitsSigned_F10 : answerTo 0x003F0 0 0xBFFFFFFFFFFFFFFF = some (0, 0, 0) := by decide
/-- F33: all ones is a large number here, not -1. -/
theorem test_fitsUnsigned_F33 : answerTo 0x00081 0 0xFFFFFFFFFFFFFFFF = some (0, 0, 0) := by decide
/-- F25. -/
theorem test_fitsUnsigned_F25 : answerTo 0x00091 0 0x1F4 = some (0, 0, 1) := by decide
/-- Section 3, width 64. -/
theorem test_unsignedMax_64 : answerTo 0x00402 0 0 = some (0, 0, 0xFFFFFFFFFFFFFFFF) := by decide
/-- Section 3, width 0. -/
theorem test_unsignedMax_0 : answerTo 0x00002 0 0 = some (0, 0, 0) := by decide
/-- Section 3, width 0. -/
theorem test_signedMax_0 : answerTo 0x00003 0 0 = some (0, 0, 0xFFFFFFFFFFFFFFFF) := by decide
/-- E1: the ignored ports are driven. -/
theorem test_signedMax_E1 :
    answerTo 0x32033 0xFFFFFFFFFFFFFFFF 0xFFFFFFFFFFFFFFFF = some (0, 0, 3) := by decide
/-- Section 3, width 31. -/
theorem test_signedMin_31 : answerTo 0x001F4 0 0 = some (0, 0, 0xFFFFFFFFC0000000) := by decide
/-- Section 3, width 127: as at 64. -/
theorem test_signedMin_127 : answerTo 0x007F4 0 0 = some (0, 0, 0x8000000000000000) := by decide
/-- X17: an unaligned 12-bit field. -/
theorem test_getUnsigned_X17 : answerTo 0x0A0C5 0x0123456789ABCDEF 0 = some (0, 0, 0x89A) := by decide
/-- X31: the sum 128 must not wrap to 0. -/
theorem test_getUnsigned_X31 : answerTo 0x20405 0x0123456789ABCDEF 0 = some (2, 1, 0) := by decide
/-- X18: the same field as X17, signed. -/
theorem test_getSigned_X18 : answerTo 0x0A0C6 0x0123456789ABCDEF 0 = some (0, 0, 0xFFFFFFFFFFFFF89A) := by decide
/-- X26: WIDTH_ZERO before CAPACITY. -/
theorem test_getSigned_X26 : answerTo 0x20006 0x0123456789ABCDEF 0 = some (2, 2, 0) := by decide
/-- I25: 63 bits at lsb 1, bit 0 kept. -/
theorem test_setUnsigned_I25 :
    answerTo 0x00BF7 0x0000000000000001 0x7FFFFFFFFFFFFFFF = some (0, 0, 0xFFFFFFFFFFFFFFFF) := by decide
/-- I30: FATAL before OVERFLOW. -/
theorem test_setUnsigned_I30 : answerTo 0x1E087 0x0123456789ABCDEF 0x1F4 = some (2, 1, 0) := by decide
/-- I27: -1 fits and only the field's bits are written. -/
theorem test_setSigned_I27 : answerTo 0x04088 0 0xFFFFFFFFFFFFFFFF = some (0, 0, 0xFF00) := by decide
/-- I20: 8 fits 4 bits unsigned and not signed. -/
theorem test_setSigned_I20 : answerTo 0x02048 0 8 = some (1, 0, 0) := by decide
/-- Z1. -/
theorem test_reserved9_Z1 : answerTo 0x00049 0x0123456789ABCDEF 1 = some (2, 3, 0) := by decide
/-- Z4: before the capacity check. -/
theorem test_reserved10_Z4 : answerTo 0x2040A 0 0 = some (2, 3, 0) := by decide
/-- R70. -/
theorem test_reserved11 : answerTo 0x0000B 0 0 = some (2, 3, 0) := by decide
/-- Z3: before the width check. -/
theorem test_reserved12_Z3 : answerTo 0x3F80C 0xFFFFFFFFFFFFFFFF 0xFFFFFFFFFFFFFFFF = some (2, 3, 0) := by decide
/-- R70. -/
theorem test_reserved13 : answerTo 0x0000D 0 0 = some (2, 3, 0) := by decide
/-- R70. -/
theorem test_reserved14 : answerTo 0x0000E 0 0 = some (2, 3, 0) := by decide
/-- Z2. -/
theorem test_reserved15_Z2 : answerTo 0x0004F 0x0123456789ABCDEF 1 = some (2, 3, 0) := by decide

/-- The fetch word of S12 is what the next step answers, on the word already on the port. -/
theorem test_withFetchWord_S12 :
    outputs (step ({ State.reset with word := 0x3F4 }.withFetchWord 24 0x01065)) = some (0, 0, 0x3D) := by decide

/-! ### Script steps (section 7) -/

/-- P4 step 1 binds r1. -/
theorem test_hostStep_P4_1 :
    (match hostStep ⟨0x1C087, .literal 0, .literal 0xAB⟩ (startRun State.reset) with
      | .next h => h.bindings | _ => []) = [some 0xAB00000000000000] := by decide
/-- P4 step 3, with the bindings of steps 1 and 2: FATAL(CAPACITY) ends the run, and a later request is not issued. -/
theorem test_runScript_P4_3 :
    (runScript [⟨0x1E085, .result 1, .literal 0⟩, ⟨0x00052, .literal 0, .literal 0⟩]
      ⟨State.reset, [some 0xAB00000000000000, some 0xAB]⟩) =
    ⟨⟨State.reset, [some 0xAB00000000000000, some 0xAB]⟩, .failed (.contractViolation .capacity)⟩ := by decide
/-- P2 step 3: OVERFLOW binds nothing and the run goes on. -/
theorem test_hostStep_P2_3 :
    (match hostStep ⟨0x03857, .literal 0xFFFFFFFFFFFFFFFF, .literal 0x1F4⟩ ⟨State.reset, [some 0x1F, some 0]⟩ with
      | .next h => h.bindings | _ => []) = [some 0x1F, some 0, none] := by decide
/-- A step that names a result nothing bound has no request. -/
theorem test_hostStep_unbound :
    (match hostStep ⟨0x00005, .result 1, .literal 0⟩ ⟨State.reset, [none]⟩ with
      | .refused r => some r | _ => none) = some (.unboundResult 2) := by decide

/-! ### Witnesses: concrete states and operands that meet the hypotheses of each statement together -/

/-- DecodeOfEncodeIsTheInstruction, at the port limits. -/
theorem witness_wellFormed : (Instr.setUnsigned 127 127).wellFormed = true := by decide
/-- StepRunsTheDecodedInstruction, PlacedControlWordRunsNext. -/
theorem witness_decodes : decodeWord (asked 0x3FFF5 0 0).ctl.toNat = .ok (.getUnsigned 127 127) ∧
    decodeTableWord 24 0x3FFF5 = some (.getUnsigned 127 127) := by decide
/-- SameRequestSameResponse: two different states with one request. -/
theorem witness_same_request : (asked 0x01065 0x3F4 0).request = { asked 0x01065 0x3F4 0 with result := 5 }.request ∧
    asked 0x01065 0x3F4 0 ≠ { asked 0x01065 0x3F4 0 with result := 5 } := by decide
/-- IgnoredPortsHaveNoEffect: F1 against F36 with every ignored port changed. -/
theorem witness_agree : (asked 0x00030 0 0xFFFFFFFFFFFFFFFC).op =
      (asked 0x3F830 0xFFFFFFFFFFFFFFFF 0xFFFFFFFFFFFFFFFC).op ∧
    ∀ p ∈ portsRead (asked 0x00030 0 0xFFFFFFFFFFFFFFFC).op,
      AgreeOn (asked 0x00030 0 0xFFFFFFFFFFFFFFFC) (asked 0x3F830 0xFFFFFFFFFFFFFFFF 0xFFFFFFFFFFFFFFFC) p := by
  refine ⟨rfl, fun p hp => ?_⟩
  have hp' : p ∈ [Port.value, Port.width] := hp
  simp only [List.mem_cons, List.mem_nil_iff, or_false] at hp'
  rcases hp' with rfl | rfl <;> rfl

/-- S12 answered: the ports settled on the response. -/
def settledS12 : State := { asked 0x01065 0x3F4 0 with status := 0, cause := 0, result := 0x3D }

/-- StepKeepsThePortInvariant (both clauses, and a settled state for the host's cycle), PresentingAgainChangesNothing, and the statements about every step that answers OK. -/
theorem witness_inv : settledS12.Inv ∧ step settledS12 = .next settledS12 :=
  ⟨⟨show settledS12.putResponse (respond settledS12.request) = settledS12 by decide,
    by constructor <;> decide⟩, rfl⟩
/-- OverflowExactlyWhenAValueDoesNotFit, ResponseCodesAreTheSpecs and NoResultWithoutOk at an OVERFLOW: S15b, at the largest
valid lsb, and I21 on the signed side. -/
theorem witness_overflow : (asked 0x1D857 0xFFFFFFFFFFFFFFFF 0x1F4).op = 7 ∧ ValidField 5 59 ∧
    answerTo 0x1D857 0xFFFFFFFFFFFFFFFF 0x1F4 = some (1, 0, 0) ∧
    answerTo 0x02048 0 0xFFFFFFFFFFFFFFF7 = some (1, 0, 0) := by decide
/-- FatalEventsAndTheirPrecedence and the statements about a FATAL: Z3 (ILLEGAL_OP), I31 (WIDTH_ZERO), F20 and X30 (CAPACITY), and
width 65 on an extremal operation, which is none. -/
theorem witness_fatal : 9 ≤ (asked 0x3F80C 0 0).op.toNat ∧ answerTo 0x3F80C 0 0 = some (2, 3, 0) ∧
    answerTo 0x23008 0x0123456789ABCDEF 0xFFFFFFFFFFFFFFF7 = some (2, 2, 0) ∧ answerTo 0x00410 0 0 = some (2, 1, 0) ∧
    answerTo 0x00C05 0x0123456789ABCDEF 0 = some (2, 1, 0) ∧
    answerTo 0x00412 0 0 = some (0, 0, 0xFFFFFFFFFFFFFFFF) := by decide
/-- FitsSignedAnswers clause by clause: widths 0 (F19), 65 (F20), 1 (F6) and 64 (F13). -/
theorem witness_fitsSigned : answerTo 0x00000 0 0 = some (2, 2, 0) ∧ answerTo 0x00410 0 0 = some (2, 1, 0) ∧
    answerTo 0x00010 0 0xFFFFFFFFFFFFFFFF = some (0, 0, 1) ∧
    answerTo 0x00400 0 0x8000000000000000 = some (0, 0, 1) := by decide
/-- FitsUnsignedAnswers clause by clause: widths 0 (F34), 65 (F35), 1 (F28) and 64 (F31). -/
theorem witness_fitsUnsigned : answerTo 0x00001 0 0 = some (2, 2, 0) ∧ answerTo 0x00411 0 0 = some (2, 1, 0) ∧
    answerTo 0x00011 0 2 = some (0, 0, 0) ∧ answerTo 0x00401 0 0xFFFFFFFFFFFFFFFF = some (0, 0, 1) := by decide
/-- FitPredicatesAgreeWithExtremalAnswers, FitIsMonotoneInTheWidth, ExtremalIdentities, SignExtensionFormsAgree: widths 1 and 64 on
a value that fits 1 bit each way it is read, its bit 63 clear. -/
theorem witness_widths : (1 ≤ 1 ∧ 1 ≤ 64 ∧ 64 ≤ 64) ∧ respFitsSigned 0 1 = .ok 1 ∧ respFitsUnsigned 1 1 = .ok 1 ∧
    (1 : Word).getLsbD 63 = false := by decide
/-- TwosComplementReadsBack and ShiftPrimitivesAreTotal: a negative and a non-negative word, amounts 63 and 64. -/
theorem witness_primitives : s64 0x8000000000000000 = -2 ^ 63 ∧ s64 0x7FFFFFFFFFFFFFFF = 2 ^ 63 - 1 ∧
    ashr64 0x8000000000000000 63 = 0xFFFFFFFFFFFFFFFF ∧ shl64 1 63 = 0x8000000000000000 ∧ shl64 1 64 = 0 ∧
    lshr64 0x8000000000000000 63 = 1 ∧ ashr64 0x8000000000000000 64 = 0xFFFFFFFFFFFFFFFF := by decide
/-- UnsignedMaxAnswers at its clauses' limits: widths 63 and 64. -/
theorem witness_unsignedMax : answerTo 0x003F2 0 0 = some (0, 0, 0x7FFFFFFFFFFFFFFF) ∧
    answerTo 0x00402 0 0 = some (0, 0, 0xFFFFFFFFFFFFFFFF) := by decide
/-- SignedMaxAnswers at its clauses' limits: widths 0, 1, 63 and 64. -/
theorem witness_signedMax : answerTo 0x00003 0 0 = some (0, 0, 0xFFFFFFFFFFFFFFFF) ∧ answerTo 0x00013 0 0 = some (0, 0, 0) ∧
    answerTo 0x003F3 0 0 = some (0, 0, 0x3FFFFFFFFFFFFFFF) ∧
    answerTo 0x00403 0 0 = some (0, 0, 0x7FFFFFFFFFFFFFFF) := by decide
/-- SignedMinAnswers at its clauses' limits: widths 0, 1, 63 and 64. -/
theorem witness_signedMin : answerTo 0x00004 0 0 = some (0, 0, 0) ∧
    answerTo 0x00014 0 0 = some (0, 0, 0xFFFFFFFFFFFFFFFF) ∧ answerTo 0x003F4 0 0 = some (0, 0, 0xC000000000000000) ∧
    answerTo 0x00404 0 0 = some (0, 0, 0x8000000000000000) := by decide
/-- GetUnsignedAnswers clause by clause: width 0 (X25), width 64 at lsb 1 (X30), and valid fields at both ends (X1, X4). -/
theorem witness_getUnsigned : answerTo 0x00005 0x0123456789ABCDEF 0 = some (2, 2, 0) ∧
    answerTo 0x00C05 0x0123456789ABCDEF 0 = some (2, 1, 0) ∧
    (ValidField 64 0 ∧ answerTo 0x00405 0x0123456789ABCDEF 0 = some (0, 0, 0x0123456789ABCDEF)) ∧
    (ValidField 1 63 ∧ answerTo 0x1F815 0x8000000000000001 0 = some (0, 0, 1)) := by decide
/-- GetSignedAnswers clause by clause: width 0 (X26), width 65 (X29), and valid fields at both ends (X2, X5). -/
theorem witness_getSigned : answerTo 0x20006 0x0123456789ABCDEF 0 = some (2, 2, 0) ∧
    answerTo 0x00416 0x0123456789ABCDEF 0 = some (2, 1, 0) ∧
    (ValidField 64 0 ∧ answerTo 0x00406 0xFEDCBA9876543210 0 = some (0, 0, 0xFEDCBA9876543210)) ∧
    (ValidField 1 63 ∧ answerTo 0x1F816 0x8000000000000001 0 = some (0, 0, 0xFFFFFFFFFFFFFFFF)) := by decide
/-- SubfieldExtractionComposes: a sub-field reaching the top of its field. -/
theorem witness_subfield : ValidField 12 20 ∧ ValidField 4 8 ∧ 4 + 8 ≤ 12 := by decide
/-- SetUnsignedAnswers clause by clause: width 0 (I28), capacity (I29), overflow at 2^63 (I24), OK at the top (I12). -/
theorem witness_setUnsigned : answerTo 0x00007 0x0123456789ABCDEF 0 = some (2, 2, 0) ∧
    answerTo 0x1E087 0x0123456789ABCDEF 1 = some (2, 1, 0) ∧
    (ValidField 63 0 ∧ answerTo 0x003F7 0 0x8000000000000000 = some (1, 0, 0)) ∧
    (ValidField 1 63 ∧ answerTo 0x1F817 0 1 = some (0, 0, 0x8000000000000000)) := by decide
/-- SetSignedAnswers clause by clause: width 0 (I31), width 65 (I32), one above `smax` (I16), one below `smin` (I21), `smin`
(I18), `smax` (I19). -/
theorem witness_setSigned : answerTo 0x23008 0x0123456789ABCDEF 0xFFFFFFFFFFFFFFF7 = some (2, 2, 0) ∧
    answerTo 0x00418 0x0123456789ABCDEF 0 = some (2, 1, 0) ∧
    (ValidField 1 0 ∧ answerTo 0x00018 0 1 = some (1, 0, 0)) ∧
    (ValidField 4 4 ∧ answerTo 0x02048 0 0xFFFFFFFFFFFFFFF7 = some (1, 0, 0) ∧
      answerTo 0x02048 0 0xFFFFFFFFFFFFFFF8 = some (0, 0, 0x80) ∧ answerTo 0x02048 0 7 = some (0, 0, 0x70)) := by decide
/-- FieldMaskAndItsPartition, InsertionReplacesTheField and the laws over valid fields, at the boundaries of ValidField; below it
width 0, above it a sum of 65. -/
theorem witness_validField : ValidField 1 0 ∧ ValidField 1 63 ∧ ValidField 64 0 ∧ ¬ ValidField 0 0 ∧ ¬ ValidField 1 64 ∧
    ¬ ValidField 64 1 := by decide
/-- InsertionsAgreeOnWhatBothAccept: the largest value both accept at width 4, and width 63 for its last clause. -/
theorem witness_both_accept : ValidField 4 4 ∧ (((7 : Word).toNat : Int) ≤ smax 4) ∧ ValidField 63 1 := by decide
/-- UnsignedRoundTrip and SignedRoundTrip, at `umax(9)` and `smin(4)`. -/
theorem witness_round_trip : ValidField 9 55 ∧ respFitsUnsigned 0x1FF 9 = .ok 1 ∧ ValidField 4 60 ∧
    respFitsSigned 0xFFFFFFFFFFFFFFF8 4 = .ok 1 := by decide
/-- DisjointFieldsAreIndependent, LastInsertionWins: fields that touch, and insertions that succeed. -/
theorem witness_disjoint : ValidField 4 4 ∧ ValidField 8 8 ∧ 4 + 4 ≤ 8 ∧
    respSetUnsigned 0x0123456789ABCDEF 4 4 10 = .ok 0x0123456789ABCDAF ∧
    respSetSigned 0x0123456789ABCDAF 8 8 0xFFFFFFFFFFFFFFFF = .ok 0x0123456789ABFFAF := by decide
/-- HostBindsOkAndFaultsOnFatal: a step that reads an earlier result. -/
theorem witness_operands : readOperand [some 0xAB, none] (.result 1) = some 0xAB ∧
    readOperand [some 0xAB, none] (.literal 7) = some 7 ∧ readOperand [some 0xAB, none] (.result 2) = none := by decide
/-- RunEndsAtTheFirstFatal, its last clause: P4 with step 2 left out. Step 1 completes, step 3 has its operands bound and is
answered FATAL; P2 step 3 and P4 step 2 for the two other answers. -/
theorem witness_run_reaches_fatal :
    (runScript [⟨0x1C087, .literal 0, .literal 0xAB⟩] (startRun State.reset)).ending = .completed ∧
    (runScript [⟨0x1C087, .literal 0, .literal 0xAB⟩] (startRun State.reset)).host.bindings = [some 0xAB00000000000000] ∧
    readOperand [some 0xAB00000000000000] (.result 1) = some 0xAB00000000000000 ∧
    respond ⟨ctlOp 0x1E085, ctlWidth 0x1E085, ctlLsb 0x1E085, 0xAB00000000000000, 0⟩ = .fatal .capacity ∧
    respond ⟨ctlOp 0x03857, ctlWidth 0x03857, ctlLsb 0x03857, 0xFFFFFFFFFFFFFFFF, 0x1F4⟩ = .overflow ∧
    respond ⟨ctlOp 0x1C085, ctlWidth 0x1C085, ctlLsb 0x1C085, 0xAB00000000000000, 0⟩ = .ok 0xAB := by decide
/-- RunEndsAtTheFirstFatal, ContinuingARunIsTheLongerRun: a run that completes and a run that fails. -/
theorem witness_runs : (runScript [⟨0x00052, .literal 0, .literal 0⟩] (startRun State.reset)).ending = .completed ∧
    (runScript [⟨0x00000, .literal 0, .literal 0⟩] (startRun State.reset)).ending =
      .failed (.contractViolation .widthZero) := by decide
/-- ResponseDependsOnItsRequestOnly: a past that is served, a FATAL in it. -/
theorem witness_past : outputs (serveAll [⟨9, 0, 0, 0, 0⟩, ⟨2, 3, 0, 0, 0⟩] State.reset) = some (0, 0, 7) := by decide
/-- InstancesShareNothing: instance 1 of two. -/
theorem witness_instances : 1 < [State.reset, State.reset].length := by decide

end Sys2Proof.Tests
end

section
/-! The primitives of 00_scope.md: the two's-complement reading of R14 and the three shifts of R15. -/

namespace Sys2Proof.Machine

/-! ### The two's-complement reading (R14) -/

theorem s64_of_bit63_clear {x : Word} (h : x.getLsbD 63 = false) : s64 x = x.toNat :=
  if_neg (ne_true_of_eq_false h)

theorem s64_of_bit63_set {x : Word} (h : x.getLsbD 63 = true) : s64 x = (x.toNat : Int) - 2 ^ 64 :=
  if_pos h

theorem s64_range (x : Word) : -2 ^ 63 ≤ s64 x ∧ s64 x ≤ 2 ^ 63 - 1 := by
  rw [s64_eq_toInt]
  exact ⟨x.le_toInt, Int.le_sub_one_of_lt x.toInt_lt⟩

/-- The residue of R14, at every integer. -/
theorem enc64_toNat (n : Int) : ((enc64 n).toNat : Int) = n % 2 ^ 64 := by
  have hnonneg : 0 ≤ n % 2 ^ 64 := Int.emod_nonneg n (by decide)
  rw [enc64, BitVec.toNat_ofInt]
  exact Int.toNat_of_nonneg hnonneg

theorem s64_enc64 {n : Int} (h1 : -2 ^ 63 ≤ n) (h2 : n ≤ 2 ^ 63 - 1) : s64 (enc64 n) = n := by
  rw [s64_eq_toInt]
  exact enc64_toInt h1 (Int.lt_of_le_sub_one h2)

/-- Settles O22: `s64` is the signed reading of the word, `enc64` the residue modulo 2^64, so each undoes the other on its
range. -/
theorem twosComplementReadsBack : Obligations.TwosComplementReadsBack := by
  refine ⟨fun x => ?_, fun n _ _ => enc64_toNat n, fun n h1 h2 => s64_enc64 h1 h2⟩
  obtain ⟨hlo, hhi⟩ := s64_range x
  exact ⟨s64_of_bit63_clear, s64_of_bit63_set, hlo, hhi, enc64_s64 x⟩

/-! ### The shifts as arithmetic, at every amount, and saturated from 64 on (R15) -/

theorem shl64_toNat (x : Word) (k : Nat) : (shl64 x k).toNat = x.toNat * 2 ^ k % 2 ^ 64 := by
  rw [shl64_eq, BitVec.toNat_shiftLeft, Nat.shiftLeft_eq]

theorem lshr64_toNat (x : Word) (k : Nat) : (lshr64 x k).toNat = x.toNat / 2 ^ k := by
  rw [lshr64_eq, BitVec.toNat_ushiftRight, Nat.shiftRight_eq_div_pow]

theorem ashr64_toInt (x : Word) (k : Nat) : (ashr64 x k).toInt = x.toInt / 2 ^ k := by
  rw [ashr64_eq, BitVec.toInt_sshiftRight, Int.shiftRight_eq_div_pow]
  norm_cast

/-- Copies of bit 63 enter from the top. -/
theorem ashr64_getLsbD (x : Word) (k : Nat) {p : Nat} (hp : p < 64) :
    (ashr64 x k).getLsbD p = if p + k < 64 then x.getLsbD (p + k) else x.getLsbD 63 := by
  have hlt : ¬ 64 ≤ p := by omega
  rw [ashr64_eq, BitVec.getLsbD_sshiftRight, BitVec.msb_eq_getLsbD_last, Nat.add_comm k p]
  simp [hlt]

theorem shl64_saturated (x : Word) {k : Nat} (h : 64 ≤ k) : shl64 x k = 0 :=
  if_neg (by omega)

theorem lshr64_saturated (x : Word) {k : Nat} (h : 64 ≤ k) : lshr64 x k = 0 :=
  if_neg (by omega)

theorem ashr64_saturated (x : Word) {k : Nat} (h : 64 ≤ k) :
    ashr64 x k = if x.getLsbD 63 then 0xFFFFFFFFFFFFFFFF else 0 :=
  if_neg (by omega)

/-- Settles O23: each shift is its `BitVec` counterpart, which gives the values to 63; from 64 on the model's saturated arm
is taken. -/
theorem shiftPrimitivesAreTotal : Obligations.ShiftPrimitivesAreTotal := by
  intro x k
  constructor
  · intro _
    exact ⟨shl64_toNat x k, lshr64_toNat x k, ashr64_toInt x k, fun p hp => ashr64_getLsbD x k hp⟩
  · intro hk
    exact ⟨shl64_saturated x hk, lshr64_saturated x hk, ashr64_saturated x hk⟩

end Sys2Proof.Machine
end

section
/-! The block keeps nothing (20_memory.md): a step's next state is a function of the request alone, the request ports are
read and never written, and instances share nothing. -/

namespace Sys2Proof.Machine

/-! ### A step is `respond` of the request -/

/-- The decoder and the dispatch together are the case table of R60: they agree on each of the sixteen codes. -/
theorem exec_decodeFields (op : BitVec 4) (width lsb : BitVec 7) (s : State) :
    exec (decodeFields op width lsb) s = .next (s.putResponse (respond ⟨op, width, lsb, s.word, s.value⟩)) := by
  rcases op_cases op with rfl | rfl | rfl | rfl | rfl | rfl | rfl | rfl | rfl | rfl | rfl | rfl | rfl | rfl | rfl | rfl <;>
    rfl

theorem step_eq_next_respond (s : State) : step s = .next (s.putResponse (respond s.request)) := by
  rw [step, State.ctl, decode_assembleCtl, exec_decodeFields]
  rfl

theorem step_present (s : State) (r : Request) :
    step (s.present r) = .next ((s.present r).putResponse (respond r)) := by
  rw [step_eq_next_respond, present_request]

/-- A request and a response fill all eight ports, so nothing is left of the state they were put on. -/
theorem present_putResponse_of_any (s t : State) (r : Request) (a : Response) :
    (s.present r).putResponse a = (t.present r).putResponse a := rfl

/-! ### Statements about one block -/

/-- Settles O11: the step left the request ports alone, so the second step puts the response that already stands there. -/
theorem presentingAgainChangesNothing : Obligations.PresentingAgainChangesNothing := by
  intro s t h
  rw [step_eq_next_respond] at h
  cases h
  rw [step_eq_next_respond, putResponse_request, putResponse_putResponse]

/-- Every history is served to its end. -/
theorem serveAll_completes (earlier : List Request) (s : State) : ∃ t, serveAll earlier s = .next t := by
  induction earlier generalizing s with
  | nil => exact ⟨s, rfl⟩
  | cons r rest ih =>
    rw [serveAll, step_present]
    exact ih _

/-- Settles O12: a history only chooses the state `r` is presented on, and presenting and answering `r` overwrites every
port of it. -/
theorem responseDependsOnItsRequestOnly : Obligations.ResponseDependsOnItsRequestOnly := by
  intro earlier s r
  obtain ⟨t, ht⟩ := serveAll_completes earlier s
  refine ⟨t, (t.present r).putResponse (respond r), ht, step_present t r, ?_, putResponse_sample _ _, ?_⟩
  · rw [putResponse_request, present_request]
  · intro other s' t' _
    rw [step_present, present_putResponse_of_any t' t]

/-- Settles O13: all an instruction does is put a response on the response ports. -/
theorem requestPortsAreOnlyRead : Obligations.RequestPortsAreOnlyRead := by
  intro i s
  obtain ⟨r, hr⟩ := exec_answers s i
  exact ⟨s.putResponse r, hr, putResponse_op s r, putResponse_width s r, putResponse_lsb s r, putResponse_word s r,
    putResponse_value s r⟩

/-! ### Several instances (R51) -/

/-- Serving an instance the system has replaces that one entry, by the answered request. -/
theorem serveInstance_eq_next_set {k : Nat} (r : Request) {units : List State} (hk : k < units.length) :
    serveInstance k r units = .next (units.set k ((units[k].present r).putResponse (respond r))) := by
  rw [serveInstance, List.getElem?_eq_getElem hk]
  simp only [step_present]

/-- Settles O54: replacing entry `k` of the list leaves its length and every other entry as they were. -/
theorem instancesShareNothing : Obligations.InstancesShareNothing := by
  intro k r units hk
  refine ⟨_, serveInstance_eq_next_set r hk, List.length_set, ⟨_, List.getElem?_set_self hk, ?_, ?_⟩, ?_⟩
  · rw [putResponse_request, present_request]
  · exact putResponse_sample _ _
  · intro j hj
    exact List.getElem?_set_ne hj.symm

end Sys2Proof.Machine
end

section
/-! The control word (30_encoding.md R62 to R73): its three fields, and the encoder and the decoder undoing each other. -/

namespace Sys2Proof

open Machine

/-! ### The fields of a control word (R62) -/

theorem ctlOp_getLsbD (c : Ctl) {p : Nat} (hp : p < 4) : (ctlOp c).getLsbD p = c.getLsbD p := by
  simp [ctlOp, hp]

theorem ctlWidth_getLsbD (c : Ctl) {p : Nat} (hp : p < 7) : (ctlWidth c).getLsbD p = c.getLsbD (4 + p) := by
  simp [ctlWidth, hp]

theorem ctlLsb_getLsbD (c : Ctl) {p : Nat} (hp : p < 7) : (ctlLsb c).getLsbD p = c.getLsbD (11 + p) := by
  simp [ctlLsb, hp]

/-- Settles O3: the control word of a state is its three narrow ports side by side. -/
theorem controlWordIsTheWeightedSum : Obligations.ControlWordIsTheWeightedSum := by
  constructor
  · intro s
    exact ⟨assembleCtl_toNat s.op s.width s.lsb, ctlOp_assembleCtl .., ctlWidth_assembleCtl .., ctlLsb_assembleCtl ..⟩
  · intro c
    exact ⟨fun _ => ctlOp_getLsbD c, fun _ => ctlWidth_getLsbD c, fun _ => ctlLsb_getLsbD c⟩

/-! ### Encoding an instruction -/

theorem encode_of_wellFormed {i : Instr} (h : i.wellFormed = true) :
    encode i = some (assembleCtl (opcode i) (portBits (widthOperand i)) (portBits (lsbOperand i))) :=
  if_pos h

theorem encode_eq_none_iff (i : Instr) : encode i = none ↔ i.wellFormed = false := by
  simp [encode]

/-- Well-formedness speaks of the operands alone: each one an instruction has must fit its port (R63). -/
theorem wellFormed_eq_operands_fit (i : Instr) :
    i.wellFormed = ((widthOperand i).all fitsNarrowPort && (lsbOperand i).all fitsNarrowPort) := by
  cases i <;> simp [Instr.wellFormed, widthOperand, lsbOperand]

theorem operand_misfits_iff (operand : Option Nat) :
    operand.all fitsNarrowPort = false ↔ ∃ n, operand = some n ∧ 128 ≤ n := by
  cases operand <;> simp [fitsNarrowPort]

/-- Settles O6: the encoder refuses ill-formed instructions, which are those with an operand that misfits its port. -/
theorem encodeRefusesOperandsBeyondThePort : Obligations.EncodeRefusesOperandsBeyondThePort := by
  intro i
  rw [encode_eq_none_iff, wellFormed_eq_operands_fit, Bool.and_eq_false_iff, operand_misfits_iff, operand_misfits_iff]

/-- The per-constructor family `Laws.FieldsDecode`, over all instructions. -/
theorem decodeFields_of_encodedFields (i : Instr) : Laws.FieldsDecode.Statement i := by
  cases i with
  | fitsSigned width => exact Laws.FieldsDecode.fitsSigned width
  | fitsUnsigned width => exact Laws.FieldsDecode.fitsUnsigned width
  | unsignedMax width => exact Laws.FieldsDecode.unsignedMax width
  | signedMax width => exact Laws.FieldsDecode.signedMax width
  | signedMin width => exact Laws.FieldsDecode.signedMin width
  | getUnsigned width lsb => exact Laws.FieldsDecode.getUnsigned width lsb
  | getSigned width lsb => exact Laws.FieldsDecode.getSigned width lsb
  | setUnsigned width lsb => exact Laws.FieldsDecode.setUnsigned width lsb
  | setSigned width lsb => exact Laws.FieldsDecode.setSigned width lsb
  | reserved9 => exact Laws.FieldsDecode.reserved9
  | reserved10 => exact Laws.FieldsDecode.reserved10
  | reserved11 => exact Laws.FieldsDecode.reserved11
  | reserved12 => exact Laws.FieldsDecode.reserved12
  | reserved13 => exact Laws.FieldsDecode.reserved13
  | reserved14 => exact Laws.FieldsDecode.reserved14
  | reserved15 => exact Laws.FieldsDecode.reserved15

/-- Settles O1: the decoder reads back the three fields the encoder put side by side, and these are the instruction's. -/
theorem decodeOfEncodeIsTheInstruction : Obligations.DecodeOfEncodeIsTheInstruction := by
  intro i h
  refine ⟨_, encode_of_wellFormed h, ?_⟩
  rw [decode_assembleCtl]
  exact decodeFields_of_encodedFields i h

/-! ### What the decoder gives, field by field -/

theorem wellFormed_decodeFields (op : BitVec 4) (width lsb : BitVec 7) :
    (decodeFields op width lsb).wellFormed = true := by
  rcases op_cases op with rfl | rfl | rfl | rfl | rfl | rfl | rfl | rfl | rfl | rfl | rfl | rfl | rfl | rfl | rfl | rfl <;>
    simp [decodeFields, Instr.wellFormed]

theorem opcode_decodeFields (op : BitVec 4) (width lsb : BitVec 7) : opcode (decodeFields op width lsb) = op := by
  rcases op_cases op with rfl | rfl | rfl | rfl | rfl | rfl | rfl | rfl | rfl | rfl | rfl | rfl | rfl | rfl | rfl | rfl <;>
    rfl

/-- The decoder keeps the width exactly for the operations whose row of the opcode table lists that port (R69). -/
theorem portBits_widthOperand_decodeFields (op : BitVec 4) (width lsb : BitVec 7) :
    portBits (widthOperand (decodeFields op width lsb)) = if Port.width ∈ portsRead op then width else 0 := by
  rcases op_cases op with rfl | rfl | rfl | rfl | rfl | rfl | rfl | rfl | rfl | rfl | rfl | rfl | rfl | rfl | rfl | rfl <;>
    simp [decodeFields, widthOperand]

/-- The decoder keeps the lsb exactly for the operations whose row of the opcode table lists that port (R69). -/
theorem portBits_lsbOperand_decodeFields (op : BitVec 4) (width lsb : BitVec 7) :
    portBits (lsbOperand (decodeFields op width lsb)) = if Port.lsb ∈ portsRead op then lsb else 0 := by
  rcases op_cases op with rfl | rfl | rfl | rfl | rfl | rfl | rfl | rfl | rfl | rfl | rfl | rfl | rfl | rfl | rfl | rfl <;>
    simp [decodeFields, lsbOperand]

theorem wellFormed_decode (c : Ctl) : (decode c).wellFormed = true := wellFormed_decodeFields ..

/-- Settles O2: the decoded instruction has the word's operation code and the operands its row lists, and the encoder shows
the others as 0. -/
theorem encodeOfDecodeClearsIgnoredPorts : Obligations.EncodeOfDecodeClearsIgnoredPorts := by
  intro c
  rw [encode_of_wellFormed (wellFormed_decode c), decode, opcode_decodeFields, portBits_widthOperand_decodeFields,
    portBits_lsbOperand_decodeFields]

/-! ### The step decodes the control word on the ports -/

/-- A control word is a number below 2^18, so it is never refused. -/
theorem decodeWord_toNat (c : Ctl) : decodeWord c.toNat = .ok (decode c) := by
  rw [decodeWord, if_pos c.isLt, BitVec.ofNat_toNat, BitVec.setWidth_eq]

/-- Settles O7: the control word on the ports decodes to `decode` of it, which is what a step runs. -/
theorem stepRunsTheDecodedInstruction : Obligations.StepRunsTheDecodedInstruction := by
  intro s
  rw [decodeWord_toNat]
  refine ⟨⟨decode s.ctl, rfl, wellFormed_decode s.ctl⟩, fun i hi => ?_⟩
  cases hi
  rfl

end Sys2Proof
end

section
/-! The response ports after a step (30_encoding.md R60 to R70): the answer of the one function, with legal codes, and
untouched by the ports an operation ignores. -/

namespace Sys2Proof.Machine

/-- Settles O9: the decoder and the dispatch agree with the case table on every operation code. -/
theorem stepAnswersRespond : Obligations.StepAnswersRespond := step_eq_next_respond

/-! ### Settled and legal responses -/

/-- The request ports are not written, so the answer put on the ports is still the answer to the request there. -/
theorem putResponse_respond_settled (s : State) : (s.putResponse (respond s.request)).Settled := by
  rw [State.Settled, putResponse_request, putResponse_putResponse]

theorem code_ne_zero (k : FatalCause) : k.code ≠ 0#2 := by
  cases k <;> decide

/-- Each of the three shapes of a response has legal codes (R65, R66). -/
theorem putResponse_legal (s : State) (r : Response) : (s.putResponse r).LegalResponse := by
  cases r with
  | ok w => constructor <;> simp
  | overflow => constructor <;> simp
  | fatal k => constructor <;> simp [code_ne_zero]

theorem putResponse_respond_inv (s : State) : (s.putResponse (respond s.request)).Inv :=
  ⟨putResponse_respond_settled s, putResponse_legal s _⟩

/-- The invariant holds after any step, from any state. -/
theorem inv_of_step {s t : State} (h : step s = .next t) : t.Inv := by
  rw [step_eq_next_respond] at h
  cases h
  exact putResponse_respond_inv s

/-- Settles O15: a step puts the request's own answer on the ports, in one of the three legal shapes; driving a request and
stepping is a step too. -/
theorem stepKeepsThePortInvariant : Obligations.StepKeepsThePortInvariant := by
  refine ⟨fun s t h => inv_of_step h, fun s _ r => ?_⟩
  have hstep := step_present s r
  exact ⟨_, hstep, inv_of_step hstep, by rw [putResponse_request, present_request]⟩

theorem eq_one_two_or_three_of_ne_zero {c : BitVec 2} (h : c ≠ 0) : c = 1 ∨ c = 2 ∨ c = 3 := by
  revert c
  decide

/-- Settles O17: the codes are the model's by definition, and the invariant of a step says which of them stand together. -/
theorem responseCodesAreTheSpecs : Obligations.ResponseCodesAreTheSpecs := by
  refine ⟨statusCode_ok, statusCode_overflow, statusCode_fatal, code_capacity, code_widthZero, code_illegalOp,
    fun s t h => ?_⟩
  obtain ⟨hstatus, hnone, hsome, _⟩ := (inv_of_step h).legal
  refine ⟨hstatus, fun hst => hnone ?_, fun hst => eq_one_two_or_three_of_ne_zero (hsome hst)⟩
  rcases hst with hst | hst <;> simp [hst]

/-- Settles O18: the invariant of a step leaves `result` at 0 unless the status is OK. -/
theorem noResultWithoutOk : Obligations.NoResultWithoutOk := by
  intro s t h hst
  apply (inv_of_step h).legal.result_zero
  rcases hst with hst | hst <;> simp [hst]

/-! ### Ignored ports and reserved codes -/

/-- `respond` looks only at the ports that the opcode table lists for the operation. -/
theorem respond_eq_of_agreeOn_portsRead {s t : State} (hop : s.op = t.op) (h : ∀ p ∈ portsRead s.op, AgreeOn s t p) :
    respond s.request = respond t.request := by
  have hwidth : Port.width ∈ portsRead s.op → s.width = t.width := h .width
  have hlsb : Port.lsb ∈ portsRead s.op → s.lsb = t.lsb := h .lsb
  have hword : Port.word ∈ portsRead s.op → s.word = t.word := h .word
  have hvalue : Port.value ∈ portsRead s.op → s.value = t.value := h .value
  rcases op_cases s.op with ho | ho | ho | ho | ho | ho | ho | ho | ho | ho | ho | ho | ho | ho | ho | ho <;>
    simp [respond, ← hop, ho, hwidth, hlsb, hword, hvalue]

/-- Settles O14: the two requests have one answer, and it is all that stands on the response ports. -/
theorem ignoredPortsHaveNoEffect : Obligations.IgnoredPortsHaveNoEffect := by
  intro s t hop hagree
  refine ⟨_, _, step_eq_next_respond s, step_eq_next_respond t, ?_⟩
  rw [respond_eq_of_agreeOn_portsRead hop hagree]
  exact ⟨rfl, rfl, rfl⟩

/-- Beyond the nine operations the case table of R60 has one arm left. -/
theorem respond_of_reserved {r : Request} (h : 9 ≤ r.op.toNat) : respond r = .fatal .illegalOp := by
  unfold respond
  split
  case h_10 => rfl
  all_goals omega

/-- Settles O21: each of the seven constructors, and `respond` at each code from 9 on, answers ILLEGAL_OP. -/
theorem reservedCodesAnswerIllegalOp : Obligations.ReservedCodesAnswerIllegalOp := by
  constructor
  · intro s i hi
    simp only [List.mem_cons, List.not_mem_nil, or_false] at hi
    rcases hi with rfl | rfl | rfl | rfl | rfl | rfl | rfl <;> rfl
  · intro s h
    rw [step_eq_next_respond, respond_of_reserved h]
    rfl

end Sys2Proof.Machine
end

section
/-! The control word as a number (30_encoding.md R62), for every instruction the encoder accepts. -/

namespace Sys2Proof

open Machine

/-- An operand that fits its port is on the port as it stands; the port of an absent operand is 0. -/
theorem portBits_toNat_eq_getD {operand : Option Nat} (h : operand.all fitsNarrowPort = true) :
    (portBits operand).toNat = operand.getD 0 := by
  cases operand with
  | none => rfl
  | some n => exact portBits_toNat h

theorem encode_eq_weightedSum {i : Instr} (h : i.wellFormed = true) :
    encode i = some (BitVec.ofNat 18
      ((lsbOperand i).getD 0 * 2048 + (widthOperand i).getD 0 * 16 + (opcode i).toNat)) := by
  have hfit := h
  rw [wellFormed_eq_operands_fit, Bool.and_eq_true] at hfit
  obtain ⟨hwidth, hlsb⟩ := hfit
  rw [encode_of_wellFormed h, ← portBits_toNat_eq_getD hwidth, ← portBits_toNat_eq_getD hlsb, ← assembleCtl_toNat,
    BitVec.ofNat_toNat, BitVec.setWidth_eq]

/-- The control word of an operation that has a width and no lsb. -/
theorem encode_of_width_only {i : Instr} {width : Nat} (hw : widthOperand i = some width) (hl : lsbOperand i = none)
    (h : width < 128) : encode i = some (BitVec.ofNat 18 (width * 16 + (opcode i).toNat)) := by
  have hwf : i.wellFormed = true := by
    simp [wellFormed_eq_operands_fit, hw, hl, fitsNarrowPort, h]
  simp [encode_eq_weightedSum hwf, hw, hl]

end Sys2Proof
end

section
/-! The fit predicates (40_fit_predicates.md R91 to R94): their answers at every width, against the extremal operations, and
from one width to a larger one. -/

namespace Sys2Proof.Machine

/-! ### Boolean results (R67) -/

theorem zext64_decide (p : Prop) [Decidable p] : zext64 (decide p) = if p then 1 else 0 := by
  simp [zext64]

theorem zext64_eq_one_iff (b : Bool) : zext64 b = 1 ↔ b = true := by
  cases b <;> decide

/-! ### The tests as ranges of the legal widths -/

theorem fitsS_eq_decide_range (v : Word) {w : Nat} (h1 : 1 ≤ w) (h2 : w ≤ 64) :
    fitsS v w = decide (-2 ^ (w - 1) ≤ v.toInt ∧ v.toInt ≤ 2 ^ (w - 1) - 1) := by
  rw [fitsS, smin_eq h1 h2, smax_eq h1 h2, s64_eq_toInt]

theorem le_umax_iff_lt (n : Nat) {w : Nat} (h : w ≤ 64) : n ≤ umax w ↔ n < 2 ^ w := by
  rw [umax_eq h, Nat.le_sub_one_iff_lt (Nat.two_pow_pos w)]

/-! ### The response for each class of width -/

theorem respFitsSigned_zero (v : Word) : respFitsSigned v 0 = .fatal .widthZero := rfl

theorem respFitsUnsigned_zero (v : Word) : respFitsUnsigned v 0 = .fatal .widthZero := rfl

theorem respFitsSigned_capacity (v : Word) {w : Nat} (h : 64 < w) : respFitsSigned v w = .fatal .capacity := by
  rw [respFitsSigned, fitFault_capacity h, guarded_some]

theorem respFitsUnsigned_capacity (v : Word) {w : Nat} (h : 64 < w) : respFitsUnsigned v w = .fatal .capacity := by
  rw [respFitsUnsigned, fitFault_capacity h, guarded_some]

theorem respFitsSigned_valid (v : Word) {w : Nat} (h1 : 1 ≤ w) (h2 : w ≤ 64) :
    respFitsSigned v w = .ok (zext64 (fitsS v w)) := by
  rw [respFitsSigned, fitFault_valid h1 h2, guarded_none]

theorem respFitsUnsigned_valid (v : Word) {w : Nat} (h1 : 1 ≤ w) (h2 : w ≤ 64) :
    respFitsUnsigned v w = .ok (zext64 (fitsU v w)) := by
  rw [respFitsUnsigned, fitFault_valid h1 h2, guarded_none]

/-- Settles O24: the domain check decides the two FATAL widths, and between them the answer is the range test, whose other
form is `fitsS_iff_sextw`. -/
theorem fitsSignedAnswers : Obligations.FitsSignedAnswers := by
  intro width s
  refine ⟨?zero, ?capacity, fun h1 h2 => ⟨?answer, ?forms⟩, fun h => encode_of_width_only rfl rfl h⟩
  case zero =>
    rintro rfl
    rw [exec_fitsSigned, respFitsSigned_zero]
    rfl
  case capacity =>
    intro h
    rw [exec_fitsSigned, respFitsSigned_capacity _ h]
    rfl
  case answer =>
    rw [exec_fitsSigned, respFitsSigned_valid _ h1 h2, fitsS_eq_decide_range _ h1 h2, zext64_decide]
    rfl
  case forms => rw [fitsS_iff_sextw _ h1 h2, smin_eq h1 h2, smax_eq h1 h2, s64_eq_toInt]

/-- Settles O25: the domain check decides the two FATAL widths, and between them the answer is the comparison, whose other
form is `fitsU_iff_bits`. -/
theorem fitsUnsignedAnswers : Obligations.FitsUnsignedAnswers := by
  intro width s
  refine ⟨?zero, ?capacity, fun h1 h2 => ⟨?answer, ?forms⟩, fun h => encode_of_width_only rfl rfl h⟩
  case zero =>
    rintro rfl
    rw [exec_fitsUnsigned, respFitsUnsigned_zero]
    rfl
  case capacity =>
    intro h
    rw [exec_fitsUnsigned, respFitsUnsigned_capacity _ h]
    rfl
  case answer =>
    simp only [exec_fitsUnsigned, respFitsUnsigned_valid _ h1 h2, fitsU, zext64_decide, le_umax_iff_lt _ h2]
    rfl
  case forms => rw [← le_umax_iff_lt _ h2, fitsU_iff_bits _ h2]

/-! ### Against the extremal operations (R93) -/

/-- Settles O26: the extremal operations answer with the bounds the fit tests compare with, and a bound put on the 64-bit
`result` port is read back unchanged. -/
theorem fitPredicatesAgreeWithExtremalAnswers : Obligations.FitPredicatesAgreeWithExtremalAnswers := by
  intro width s h1 h2
  have hu := exec_fitsUnsigned width s
  have hg := exec_fitsSigned width s
  rw [respFitsUnsigned_valid _ h1 h2, fitsU, zext64_decide] at hu
  rw [respFitsSigned_valid _ h1 h2, fitsS, zext64_decide] at hg
  refine ⟨_, _, _, _, _, exec_unsignedMax width s, exec_signedMax width s, exec_signedMin width s, hu, hg,
    rfl, rfl, rfl, rfl, rfl, ?unsigned, ?signed⟩
  case unsigned => simp only [putResponse_result, respUnsignedMax, resultBits_ok, umaxBits_toNat]
  case signed =>
    simp only [putResponse_result, respSignedMax, respSignedMin, resultBits_ok, enc64_smax_toInt, enc64_smin_toInt,
      s64_eq_toInt]

/-! ### The ranges are nested (R94) -/

theorem umax_saturated {w : Nat} (h : 64 ≤ w) : umax w = 2 ^ 64 - 1 :=
  if_neg (by omega)

theorem smax_saturated {w : Nat} (h : 64 ≤ w) : smax w = 2 ^ 63 - 1 := by
  rw [smax, if_neg (by omega), if_neg (by omega)]

theorem umax_monotone : Monotone umax := by
  refine monotone_nat_of_le_succ fun w => ?_
  by_cases h : w + 1 ≤ 64
  · rw [umax_eq (by omega), umax_eq h]
    exact Nat.sub_le_sub_right (Nat.pow_le_pow_right (by decide) (Nat.le_succ w)) 1
  · rw [umax_saturated (w := w + 1) (by omega)]
    exact Nat.le_sub_one_of_lt (umax_lt w)

theorem smin_eq_neg_smax_sub_one (w : Nat) : smin w = -smax w - 1 := by
  unfold smin smax
  split_ifs <;> ring

/-- The unsigned range of `w` bits ends where the signed range of one bit more ends. -/
theorem umax_eq_smax_succ {w : Nat} (h : w ≤ 63) : (umax w : Int) = smax (w + 1) := by
  rw [umax_eq (by omega), smax_eq (by omega) (by omega), Nat.add_sub_cancel]
  push_cast [Nat.two_pow_pos w]
  rfl

theorem smax_monotone : Monotone smax := by
  refine monotone_nat_of_le_succ fun w => ?_
  cases w with
  | zero => decide
  | succ k =>
    by_cases h : k + 1 ≤ 63
    · rw [← umax_eq_smax_succ (by omega), ← umax_eq_smax_succ h]
      exact_mod_cast umax_monotone (Nat.le_succ k)
    · rw [smax_saturated (w := k + 1 + 1) (by omega)]
      exact Int.le_sub_one_of_lt (smax_range (k + 1)).2

theorem smin_antitone : Antitone smin := by
  intro w1 w2 h
  have := smax_monotone h
  rw [smin_eq_neg_smax_sub_one, smin_eq_neg_smax_sub_one]
  omega

/-! ### A fit as the answer `1` -/

theorem respFitsSigned_eq_ok_one_iff (v : Word) {w : Nat} (h1 : 1 ≤ w) (h2 : w ≤ 64) :
    respFitsSigned v w = .ok 1 ↔ smin w ≤ s64 v ∧ s64 v ≤ smax w := by
  rw [respFitsSigned_valid v h1 h2, Response.ok.injEq, zext64_eq_one_iff, fitsS, decide_eq_true_iff]

theorem respFitsUnsigned_eq_ok_one_iff (v : Word) {w : Nat} (h1 : 1 ≤ w) (h2 : w ≤ 64) :
    respFitsUnsigned v w = .ok 1 ↔ v.toNat ≤ umax w := by
  rw [respFitsUnsigned_valid v h1 h2, Response.ok.injEq, zext64_eq_one_iff, fitsU, decide_eq_true_iff]

/-- Settles O27: both ranges only grow with the width; a value with bit 63 clear is its own signed reading, not negative,
and below the next width's signed bound. -/
theorem fitIsMonotoneInTheWidth : Obligations.FitIsMonotoneInTheWidth := by
  intro v w1 w2 h1 h12 h2
  have hw1 : w1 ≤ 64 := h12.trans h2
  have hw2 : 1 ≤ w2 := h1.trans h12
  rw [respFitsSigned_eq_ok_one_iff v h1 hw1, respFitsSigned_eq_ok_one_iff v hw2 h2,
    respFitsUnsigned_eq_ok_one_iff v h1 hw1, respFitsUnsigned_eq_ok_one_iff v hw2 h2]
  refine ⟨fun ⟨hlo, hhi⟩ => ⟨(smin_antitone h12).trans hlo, hhi.trans (smax_monotone h12)⟩,
    fun hv => hv.trans (umax_monotone h12), fun hbit hw hv => ?_⟩
  have hsmin : smin (w1 + 1) ≤ 0 := smin_antitone (Nat.zero_le _)
  have hsmax := umax_eq_smax_succ hw
  rw [respFitsSigned_eq_ok_one_iff v (by omega) (by omega), s64_of_bit63_clear hbit]
  omega

end Sys2Proof.Machine
end

section
/-! The extremal values (41_extremal_values.md R100 to R107): the three operations at every width, the forms of sign
extension, and the field mask. -/

namespace Sys2Proof.Machine

/-! ### The signed extremes from width 1 on, one formula for the saturated widths too -/

theorem smin_saturated {w : Nat} (h : 64 ≤ w) : smin w = -2 ^ 63 := by
  rw [smin_eq_neg_smax_sub_one, smax_saturated h]
  norm_num

theorem smax_eq_two_pow_min {w : Nat} (h : 1 ≤ w) : smax w = 2 ^ min (w - 1) 63 - 1 := by
  by_cases hw : w ≤ 64
  · rw [smax_eq h hw, Nat.min_eq_left (by omega)]
  · rw [smax_saturated (by omega), Nat.min_eq_right (by omega)]

theorem smin_eq_neg_two_pow_min {w : Nat} (h : 1 ≤ w) : smin w = -2 ^ min (w - 1) 63 := by
  rw [smin_eq_neg_smax_sub_one, smax_eq_two_pow_min h]
  ring

theorem enc64_smax_eq_ones {w : Nat} (h : 1 ≤ w) : enc64 (smax w) = ones (min (w - 1) 63) := by
  rw [smax_eq_two_pow_min h, enc64_two_pow_sub_one]

theorem enc64_smin_eq_signmask {w : Nat} (h : 1 ≤ w) : enc64 (smin w) = signmask (min (w - 1) 63) := by
  rw [smin_eq_neg_two_pow_min h, enc64_neg_two_pow, signmask]

/-! ### The operations at every width (R104 to R106) -/

/-- Settles O28: the answer is `umaxBits`, whose number is `umax` and whose bits are the low `width` ones; no check stands
in front of it. -/
theorem unsignedMaxAnswers : Obligations.UnsignedMaxAnswers := by
  intro width s
  refine ⟨umaxBits width, exec_unsignedMax width s, fun h => ?value, fun h => ?saturated, fun p hp => ?bits,
    fun h => encode_of_width_only rfl rfl h⟩
  case value => rw [umaxBits_toNat, umax_eq (by omega)]
  case saturated =>
    rw [umaxBits, umax_saturated h]
    rfl
  case bits => simp [hp]

/-- Settles O29: the answer is `smax` put on the port, where it is read back unchanged; from width 1 on its pattern is a
low mask. -/
theorem signedMaxAnswers : Obligations.SignedMaxAnswers := by
  intro width s
  refine ⟨enc64 (smax width), exec_signedMax width s, ?zero, fun h1 h2 => ?value, fun h => ?saturated,
    fun h p hp => ?bits, fun h => encode_of_width_only rfl rfl h⟩
  case zero =>
    rintro rfl
    exact enc64_smax_toInt 0
  case value => rw [enc64_smax_toInt, smax_eq h1 (by omega)]
  case saturated => rw [enc64_smax_toInt, smax_saturated h]
  case bits =>
    rw [enc64_smax_eq_ones h, ones_getLsbD]
    simp [hp]

/-- Settles O30: the answer is `smin` put on the port, where it is read back unchanged; from width 1 on its pattern is a
sign-extension mask. -/
theorem signedMinAnswers : Obligations.SignedMinAnswers := by
  intro width s
  refine ⟨enc64 (smin width), exec_signedMin width s, ?zero, fun h1 h2 => ?value, fun h => ?saturated,
    fun h p hp => ?bits, fun h => encode_of_width_only rfl rfl h⟩
  case zero =>
    rintro rfl
    exact enc64_smin_toInt 0
  case value => rw [enc64_smin_toInt, smin_eq h1 (by omega)]
  case saturated => rw [enc64_smin_toInt, smin_saturated h]
  case bits =>
    rw [enc64_smin_eq_signmask h, signmask_getLsbD]
    simp [hp]

/-! ### Sign extension (R103) -/

/-- The rule's own wording of the bits: kept below `w`, copies of bit `w - 1` from `w` on. -/
theorem sextw_getLsbD_eq_ite (v : Word) {w p : Nat} (h1 : 1 ≤ w) (h2 : w ≤ 64) (hp : p < 64) :
    (sextw v w).getLsbD p = if p < w then v.getLsbD p else v.getLsbD (w - 1) := by
  rw [sextw_getLsbD v h1 h2 hp]
  split
  · rw [Nat.min_eq_left (by omega)]
  · rw [Nat.min_eq_right (by omega)]

theorem sextwMask_getLsbD (v : Word) (w : Nat) {p : Nat} (hp : p < 64) :
    (sextwMask v w).getLsbD p = if p < w then v.getLsbD p else v.getLsbD (w - 1) := by
  unfold sextwMask
  by_cases hkept : p < w
  · rw [if_pos hkept]
    have hclear : ¬ w ≤ p := by omega
    split <;> simp [hp, hkept, hclear]
  · rw [if_neg hkept]
    split
    next hset => simp [hp, hkept, hset, Nat.le_of_not_lt hkept]
    next hclear => simp [hkept, hclear]

theorem sextw_eq_sextwMask (v : Word) {w : Nat} (h1 : 1 ≤ w) (h2 : w ≤ 64) : sextw v w = sextwMask v w := by
  apply BitVec.eq_of_getLsbD_eq
  intro p hp
  rw [sextw_getLsbD_eq_ite v h1 h2 hp, sextwMask_getLsbD v w hp]

/-- Every word fits 64 bits signed. -/
theorem sextw_word (v : Word) : sextw v 64 = v := by
  rw [fitsS_iff_sextw v (by decide) le_rfl, smin_saturated le_rfl, smax_saturated le_rfl]
  exact s64_range v

/-- Settles O32: both forms have the same 64 bits, and the integer is that of the low `w` bits read in two's complement. -/
theorem signExtensionFormsAgree : Obligations.SignExtensionFormsAgree := by
  intro v w h1 h2
  refine ⟨rfl, sextw_eq_sextwMask v h1 h2, fun p hp => ?mask, fun p hp => sextw_getLsbD_eq_ite v h1 h2 hp,
    sextw_toInt v h1 h2, sextw_word v⟩
  case mask =>
    rw [signmask_getLsbD]
    simp [hp]

/-! ### The field mask and the parts of an insertion (R107) -/

theorem fieldmask_eq_ones_and_not_ones (w l : Nat) : fieldmask w l = ones (l + w) &&& ~~~ ones l := by
  apply BitVec.eq_of_getLsbD_eq
  intro p hp
  have hl : decide (l ≤ p) = !decide (p < l) := by simp only [← decide_not, Nat.not_lt]
  rw [fieldmask_getLsbD, BitVec.getLsbD_and, BitVec.getLsbD_not, ones_getLsbD, ones_getLsbD, hl]
  simp [hp, Bool.and_comm]

/-- Settles O33: a position is below the field, in it or above it, and the three masks are set in the right, the middle and
the left one of these ranges. -/
theorem fieldMaskAndItsPartition : Obligations.FieldMaskAndItsPartition := by
  intro w l _
  refine ⟨rfl, fieldmask_eq_ones_and_not_ones w l, fun p hp => ?bits, fun p hp => ?partition, fun _ _ => rfl⟩
  case bits =>
    rw [fieldmask_getLsbD]
    simp [hp]
  case partition =>
    rw [BitVec.getLsbD_not, ones_getLsbD, ones_getLsbD, fieldmask_getLsbD]
    rcases Nat.lt_or_ge p l with hright | hfrom
    · have hbelow : p < l + w := by omega
      exact .inr (.inr (by simp [hp, hright, hbelow]))
    · rcases Nat.lt_or_ge p (l + w) with hmiddle | hleft
      · exact .inr (.inl (by simp [hp, hfrom, hmiddle]))
      · exact .inl (by simp [hp, hfrom, hleft])

end Sys2Proof.Machine
end

section
/-! The control word of an operation on a field (30_encoding.md R62, R68): ops 5 to 8 have a width and an lsb. -/

namespace Sys2Proof

open Machine

theorem encode_of_width_and_lsb {i : Instr} {width lsb : Nat} (hw : widthOperand i = some width)
    (hl : lsbOperand i = some lsb) (hwidth : width < 128) (hlsb : lsb < 128) :
    encode i = some (BitVec.ofNat 18 (lsb * 2048 + width * 16 + (opcode i).toNat)) := by
  have hwf : i.wellFormed = true := by
    simp [wellFormed_eq_operands_fit, hw, hl, fitsNarrowPort, hwidth, hlsb]
  simp [encode_eq_weightedSum hwf, hw, hl]

end Sys2Proof
end

section
/-! Field extraction (42_extraction.md R121 to R124): the two operations at every descriptor, what they share, and the
extraction of a part of an extracted field. -/

namespace Sys2Proof.Machine

/-! ### The response for each class of descriptor -/

theorem respGetUnsigned_zero (word : Word) (lsb : Nat) : respGetUnsigned word 0 lsb = .fatal .widthZero := rfl

theorem respGetSigned_zero (word : Word) (lsb : Nat) : respGetSigned word 0 lsb = .fatal .widthZero := rfl

theorem respGetUnsigned_capacity (word : Word) {width lsb : Nat} (h1 : 1 ≤ width) (h : 64 < width + lsb) :
    respGetUnsigned word width lsb = .fatal .capacity := by
  rw [respGetUnsigned, fieldFault_capacity h1 h, guarded_some]

theorem respGetSigned_capacity (word : Word) {width lsb : Nat} (h1 : 1 ≤ width) (h : 64 < width + lsb) :
    respGetSigned word width lsb = .fatal .capacity := by
  rw [respGetSigned, fieldFault_capacity h1 h, guarded_some]

theorem respGetUnsigned_valid (word : Word) {width lsb : Nat} (h : ValidField width lsb) :
    respGetUnsigned word width lsb = .ok (extractU word width lsb) := by
  rw [respGetUnsigned, fieldFault_valid h, guarded_none]

theorem respGetSigned_valid (word : Word) {width lsb : Nat} (h : ValidField width lsb) :
    respGetSigned word width lsb = .ok (extractS word width lsb) := by
  rw [respGetSigned, fieldFault_valid h, guarded_none]

/-- A valid descriptor never fails, so the next state is known outright. -/
theorem exec_getUnsigned_valid (s : State) {width lsb : Nat} (h : ValidField width lsb) :
    exec (.getUnsigned width lsb) s = .next (s.putResponse (.ok (extractU s.word width lsb))) := by
  rw [exec_getUnsigned, respGetUnsigned_valid _ h]

theorem exec_getSigned_valid (s : State) {width lsb : Nat} (h : ValidField width lsb) :
    exec (.getSigned width lsb) s = .next (s.putResponse (.ok (extractS s.word width lsb))) := by
  rw [exec_getSigned, respGetSigned_valid _ h]

/-! ### The two fields, bit by bit and as integers -/

theorem ValidField.width_le {width lsb : Nat} (h : ValidField width lsb) : width ≤ 64 :=
  (Nat.le_add_right width lsb).trans h.2

/-- The rule's own wording of the bits: the field's below `w`, copies of its top bit from `w` on. -/
theorem extractS_getLsbD_eq_ite (word : Word) {w l p : Nat} (h : ValidField w l) (hp : p < 64) :
    (extractS word w l).getLsbD p = word.getLsbD (l + if p < w then p else w - 1) := by
  rw [extractS_getLsbD word h hp]
  split
  · rw [Nat.min_eq_left (by omega)]
  · rw [Nat.min_eq_right (by omega)]

theorem extractU_getLsbD_above (word : Word) {w l p : Nat} (h : ValidField w l) (hwp : w ≤ p) :
    (extractU word w l).getLsbD p = false := by
  rw [extractU_getLsbD word h, decide_eq_false (Nat.not_lt.mpr hwp), Bool.false_and]

theorem extractS_getLsbD_above (word : Word) {w l p : Nat} (h : ValidField w l) (hwp : w ≤ p) (hp : p < 64) :
    (extractS word w l).getLsbD p = word.getLsbD (l + w - 1) := by
  rw [extractS_getLsbD_eq_ite word h hp, if_neg (Nat.not_lt.mpr hwp), Nat.add_sub_assoc h.1]

theorem extractU_toNat_lt (word : Word) {w l : Nat} (h : ValidField w l) : (extractU word w l).toNat < 2 ^ w := by
  rw [extractU_toNat word h]
  exact Nat.mod_lt _ (Nat.two_pow_pos w)

/-- The signed value is the two's-complement reading of the unsigned field. -/
theorem extractS_toInt (word : Word) {w l : Nat} (h : ValidField w l) :
    (extractS word w l).toInt =
      if (extractU word w l).toNat < 2 ^ (w - 1) then ((extractU word w l).toNat : Int)
      else ((extractU word w l).toNat : Int) - 2 ^ w := by
  rw [extractS_eq_sextw word h, sextw_toInt _ h.1 h.width_le, Nat.mod_eq_of_lt (extractU_toNat_lt word h)]

/-! ### The two operations (R121, R122) -/

/-- Settles O34: the descriptor check decides the two FATAL classes, and a valid descriptor gives the two shifts, whose
closed forms are those of `extractU`. -/
theorem getUnsignedAnswers : Obligations.GetUnsignedAnswers := by
  intro width lsb s
  refine ⟨?zero, fun h1 h => ?capacity, fun h => ?valid, encode_of_width_and_lsb rfl rfl⟩
  case zero =>
    rintro rfl
    rw [exec_getUnsigned, respGetUnsigned_zero]
    rfl
  case capacity =>
    rw [exec_getUnsigned, respGetUnsigned_capacity _ h1 h]
    rfl
  case valid =>
    exact ⟨extractU s.word width lsb, exec_getUnsigned_valid s h, rfl, extractU_toNat _ h, extractU_getLsbD _ h,
      extractU_eq_mask _ h⟩

/-- Settles O35: the descriptor check decides the two FATAL classes, and a valid descriptor gives the two shifts, which are
the sign extension of the field `get_unsigned` answers with. -/
theorem getSignedAnswers : Obligations.GetSignedAnswers := by
  intro width lsb s
  refine ⟨?zero, fun h1 h => ?capacity, fun h => ?valid, encode_of_width_and_lsb rfl rfl⟩
  case zero =>
    rintro rfl
    rw [exec_getSigned, respGetSigned_zero]
    rfl
  case capacity =>
    rw [exec_getSigned, respGetSigned_capacity _ h1 h]
    rfl
  case valid =>
    exact ⟨extractS s.word width lsb, extractU s.word width lsb, exec_getSigned_valid s h, exec_getUnsigned_valid s h, rfl,
      extractU_toNat _ h, extractS_toInt _ h, fun p hp => extractS_getLsbD_eq_ite _ h hp, extractS_eq_sextw _ h⟩

/-! ### What the two share (R123) -/

theorem extractS_and_umaxBits (word : Word) {w l : Nat} (h : ValidField w l) :
    extractS word w l &&& umaxBits w = extractU word w l := by
  apply BitVec.eq_of_getLsbD_eq
  intro p hp
  rw [BitVec.getLsbD_and, umaxBits_getLsbD, extractU_getLsbD word h, extractS_getLsbD_eq_ite word h hp]
  by_cases hfield : p < w <;> simp [hp, hfield]

/-- Only the copies of the top bit can tell the two apart, and at width 64 there is none. -/
theorem extractS_eq_extractU_iff (word : Word) {w l : Nat} (h : ValidField w l) :
    extractS word w l = extractU word w l ↔ word.getLsbD (l + w - 1) = false ∨ w = 64 := by
  constructor
  · intro heq
    rcases Nat.lt_or_eq_of_le h.width_le with hw | hw
    · have habove := extractS_getLsbD_above word h le_rfl hw
      rw [heq, extractU_getLsbD_above word h le_rfl] at habove
      exact .inl habove.symm
    · exact .inr hw
  · rintro (htop | rfl)
    · apply BitVec.eq_of_getLsbD_eq
      intro p hp
      by_cases hfield : p < w
      · simp [extractS_getLsbD_eq_ite word h hp, extractU_getLsbD word h, hfield]
      · have hwp : w ≤ p := Nat.le_of_not_lt hfield
        rw [extractS_getLsbD_above word h hwp hp, extractU_getLsbD_above word h hwp, htop]
    · rw [extractS_eq_sextw word h, sextw_word]

/-- Settles O36: below `width` both results have the field's bits, and from there on 0 and the field's top bit. -/
theorem signedAndUnsignedExtractionsShareTheField : Obligations.SignedAndUnsignedExtractionsShareTheField := by
  intro width lsb s h
  refine ⟨_, _, exec_getUnsigned_valid s h, exec_getSigned_valid s h, ?_⟩
  simp only [putResponse_result, resultBits_ok]
  exact ⟨extractS_and_umaxBits _ h,
    fun p hwp hp => ⟨extractU_getLsbD_above _ h hwp, extractS_getLsbD_above _ h hwp hp⟩, extractS_eq_extractU_iff _ h⟩

/-! ### A field of a field (R124) -/

theorem ValidField.subfield {width lsb w2 l2 : Nat} (h : ValidField width lsb) (h2 : ValidField w2 l2)
    (hin : w2 + l2 ≤ width) : ValidField w2 (lsb + l2) := by
  obtain ⟨-, hcap⟩ := h
  exact ⟨h2.1, by omega⟩

/-- Every bit of the inner field lies below `w`, where the outer extraction kept the word's bits. -/
theorem extractU_extractU (word : Word) {w l w2 l2 : Nat} (h : ValidField w l) (h2 : ValidField w2 l2)
    (hin : w2 + l2 ≤ w) : extractU (extractU word w l) w2 l2 = extractU word w2 (l + l2) := by
  apply BitVec.eq_of_getLsbD_eq
  intro p _
  rw [extractU_getLsbD _ h2, extractU_getLsbD word h, extractU_getLsbD word (h.subfield h2 hin), Nat.add_assoc l l2 p]
  by_cases hinner : p < w2
  · have houter : l2 + p < w := by omega
    simp [houter]
  · simp [hinner]

/-- Settles O37: all three descriptors are valid, and the inner extraction works on the outer one's result. -/
theorem subfieldExtractionComposes : Obligations.SubfieldExtractionComposes := by
  intro width lsb w2 l2 s h h2 hin
  exact ⟨_, _, _, exec_getUnsigned_valid s h, rfl, exec_getUnsigned_valid _ h2, rfl,
    exec_getUnsigned_valid s (h.subfield h2 hin), rfl, extractU_extractU s.word h h2 hin⟩

end Sys2Proof.Machine
end

section
/-! Field insertion (43_insertion.md R135 to R139): the replacement as masks and as bits, the two operations at every
descriptor, and the values each of them accepts. -/

namespace Sys2Proof.Machine

/-! ### The replacement (R136) -/

/-- The left and the right part of R136 together are the word with the field cleared. -/
theorem insertField_eq_cleared_or_middle (word value : Word) (w l : Nat) :
    insertField word w l value = (word &&& ~~~ fieldmask w l) ||| shl64 (value &&& umaxBits w) l := by
  rw [insertField, fieldmask_eq_ones_and_not_ones, BitVec.not_and, BitVec.not_not, BitVec.and_or_distrib_left]

/-- Nothing is left of a field that ends at the top of the word. -/
theorem and_not_ones_word (word : Word) : word &&& ~~~ ones 64 = 0 := by
  have hall : ~~~ ones 64 = 0#64 := by decide
  rw [hall, BitVec.and_zero]
  rfl

/-- Nothing is right of a field that starts at bit 0. -/
theorem and_ones_zero (word : Word) : word &&& ones 0 = 0 := by
  have hnone : ones 0 = 0#64 := by decide
  rw [hnone, BitVec.and_zero]
  rfl

/-- The only valid field of width 64 is the whole word. -/
theorem insertField_word (word value : Word) {l : Nat} (h : ValidField 64 l) : insertField word 64 l value = value := by
  obtain rfl : l = 0 := by
    have hcap : 64 + l ≤ 64 := h.2
    omega
  apply BitVec.eq_of_getLsbD_eq
  intro p hp
  rw [insertField_getLsbD word value h hp, if_pos (by omega), Nat.sub_zero]

/-- Settles O38: the three parts are the definition, their masks make up the field mask and its complement, and the bits are
those of `insertField`. -/
theorem insertionReplacesTheField : Obligations.InsertionReplacesTheField := by
  intro w l word value h
  refine ⟨rfl, insertField_eq_cleared_or_middle word value w l, fun p hp => insertField_getLsbD word value h hp,
    fun htop => ?left, fun hbottom => ?right, fun hw => ?whole⟩
  case left => rw [htop, and_not_ones_word]
  case right => rw [hbottom, and_ones_zero]
  case whole =>
    subst hw
    exact insertField_word word value h

/-! ### The value as the field receives it -/

theorem and_umaxBits_toNat (v : Word) {w : Nat} (h : w ≤ 64) : (v &&& umaxBits w).toNat = v.toNat % 2 ^ w := by
  rw [BitVec.toNat_and, umaxBits_toNat, umax_eq h, Nat.and_two_pow_sub_one_eq_mod]

theorem and_umaxBits_of_lt {v : Word} {w : Nat} (h : w ≤ 64) (hv : v.toNat < 2 ^ w) : v &&& umaxBits w = v := by
  apply BitVec.eq_of_toNat_eq
  rw [and_umaxBits_toNat v h, Nat.mod_eq_of_lt hv]

/-- The signed and the unsigned reading of a word differ by 0 or by 2^64, so they have the same low bits. -/
theorem toInt_emod_two_pow (v : Word) {w : Nat} (h : w ≤ 64) : v.toInt % 2 ^ w = ((v.toNat % 2 ^ w : Nat) : Int) := by
  have hd : ((2 ^ w : Nat) : Int) ∣ ((2 ^ 64 : Nat) : Int) := by exact_mod_cast pow_dvd_pow 2 h
  have hbmod : v.toInt % ((2 ^ w : Nat) : Int) = (v.toNat : Int) % ((2 ^ w : Nat) : Int) := by
    rw [BitVec.toInt_eq_toNat_bmod, ← Int.emod_emod_of_dvd _ hd, Int.bmod_emod, Int.emod_emod_of_dvd _ hd]
  exact_mod_cast hbmod

/-- R138: a value that fits signed goes into the field as itself, or with 2^width added where it is negative. -/
theorem and_umaxBits_toNat_of_fitsS {v : Word} {w : Nat} (h1 : 1 ≤ w) (h2 : w ≤ 64) (hlo : -2 ^ (w - 1) ≤ v.toInt)
    (hhi : v.toInt ≤ 2 ^ (w - 1) - 1) :
    ((v &&& umaxBits w).toNat : Int) = if 0 ≤ v.toInt then v.toInt else v.toInt + 2 ^ w := by
  have hpow : (2 : Int) ^ w = 2 ^ (w - 1) * 2 := by rw [← pow_succ, Nat.sub_add_cancel h1]
  rw [and_umaxBits_toNat v h2, ← toInt_emod_two_pow v h2]
  split
  case isTrue hnonneg => exact Int.emod_eq_of_lt hnonneg (by omega)
  case isFalse hneg =>
    rw [← Int.add_emod_right]
    exact Int.emod_eq_of_lt (by omega) (by omega)

/-! ### The response for each class of descriptor and value -/

theorem respSetUnsigned_zero (word v : Word) (lsb : Nat) : respSetUnsigned word 0 lsb v = .fatal .widthZero := rfl

theorem respSetSigned_zero (word v : Word) (lsb : Nat) : respSetSigned word 0 lsb v = .fatal .widthZero := rfl

theorem respSetUnsigned_capacity (word v : Word) {width lsb : Nat} (h1 : 1 ≤ width) (h : 64 < width + lsb) :
    respSetUnsigned word width lsb v = .fatal .capacity := by
  rw [respSetUnsigned, fieldFault_capacity h1 h, guarded_some]

theorem respSetSigned_capacity (word v : Word) {width lsb : Nat} (h1 : 1 ≤ width) (h : 64 < width + lsb) :
    respSetSigned word width lsb v = .fatal .capacity := by
  rw [respSetSigned, fieldFault_capacity h1 h, guarded_some]

theorem respSetUnsigned_overflow (word : Word) {v : Word} {width lsb : Nat} (h : ValidField width lsb)
    (hv : umax width < v.toNat) : respSetUnsigned word width lsb v = .overflow := by
  rw [respSetUnsigned, fieldFault_valid h, guarded_none, if_pos hv]

theorem respSetSigned_overflow (word : Word) {v : Word} {width lsb : Nat} (h : ValidField width lsb)
    (hv : s64 v < smin width ∨ smax width < s64 v) : respSetSigned word width lsb v = .overflow := by
  rw [respSetSigned, fieldFault_valid h, guarded_none, if_pos hv]

/-- An operation behind the descriptor check completes exactly on a valid descriptor, with what stands behind it. -/
theorem guarded_fieldFault_eq_ok_iff {width lsb : Nat} {rest : Response} {a : Word} :
    guarded (fieldFault width lsb) rest = .ok a ↔ ValidField width lsb ∧ rest = .ok a := by
  rw [← fieldFault_eq_none_iff]
  cases fieldFault width lsb <;> simp

/-- Behind the descriptor check an insertion completes exactly when its value does not misfit. -/
theorem ite_overflow_eq_ok_iff {misfit : Prop} [Decidable misfit] {built a : Word} :
    (if misfit then Response.overflow else .ok built) = .ok a ↔ ¬ misfit ∧ a = built := by
  split
  case isTrue h => simp [h]
  case isFalse h => simp [h, eq_comm]

/-- `set_unsigned` completes exactly on a valid descriptor and a value that fits, with the replaced word. -/
theorem respSetUnsigned_eq_ok_iff {word v a : Word} {width lsb : Nat} :
    respSetUnsigned word width lsb v = .ok a ↔
      ValidField width lsb ∧ v.toNat ≤ umax width ∧ a = insertField word width lsb v := by
  rw [respSetUnsigned, guarded_fieldFault_eq_ok_iff, ite_overflow_eq_ok_iff, not_lt]

/-- `set_signed` completes exactly on a valid descriptor and a value that fits, with the replaced word. -/
theorem respSetSigned_eq_ok_iff {word v a : Word} {width lsb : Nat} :
    respSetSigned word width lsb v = .ok a ↔
      ValidField width lsb ∧ (smin width ≤ s64 v ∧ s64 v ≤ smax width) ∧ a = insertField word width lsb v := by
  rw [respSetSigned, guarded_fieldFault_eq_ok_iff, ite_overflow_eq_ok_iff, not_or, not_lt, not_lt]

theorem respSetUnsigned_fits (word : Word) {v : Word} {width lsb : Nat} (h : ValidField width lsb)
    (hv : v.toNat ≤ umax width) : respSetUnsigned word width lsb v = .ok (insertField word width lsb v) :=
  respSetUnsigned_eq_ok_iff.mpr ⟨h, hv, rfl⟩

theorem respSetSigned_fits (word : Word) {v : Word} {width lsb : Nat} (h : ValidField width lsb)
    (hv : smin width ≤ s64 v ∧ s64 v ≤ smax width) :
    respSetSigned word width lsb v = .ok (insertField word width lsb v) :=
  respSetSigned_eq_ok_iff.mpr ⟨h, hv, rfl⟩

/-! ### The two operations (R137, R138) -/

/-- Settles O39: the descriptor check decides the two FATAL classes and the comparison with `umax` the OVERFLOW; a value that
fits is its own masked value. -/
theorem setUnsignedAnswers : Obligations.SetUnsignedAnswers := by
  intro width lsb s
  refine ⟨?zero, fun h1 h => ?capacity, fun h hv => ?overflow, fun h hv => ?fits, encode_of_width_and_lsb rfl rfl⟩
  case zero =>
    rintro rfl
    rw [exec_setUnsigned, respSetUnsigned_zero]
    rfl
  case capacity =>
    rw [exec_setUnsigned, respSetUnsigned_capacity _ _ h1 h]
    rfl
  case overflow =>
    rw [← not_lt, ← le_umax_iff_lt _ h.width_le, not_le] at hv
    rw [exec_setUnsigned, respSetUnsigned_overflow _ h hv]
    rfl
  case fits =>
    have hfits := (le_umax_iff_lt _ h.width_le).mpr hv
    refine ⟨insertField s.word width lsb s.value, ?_, rfl, ?_, fun p hp => insertField_getLsbD _ _ h hp⟩
    · rw [exec_setUnsigned, respSetUnsigned_fits _ h hfits]
      rfl
    · rw [insertField_eq_cleared_or_middle, and_umaxBits_of_lt h.width_le hv]

/-- Settles O40: the descriptor check decides the two FATAL classes and the comparison with `smin` and `smax` the OVERFLOW; the
field gets the low bits of the value, `and_umaxBits_toNat_of_fitsS`. -/
theorem setSignedAnswers : Obligations.SetSignedAnswers := by
  intro width lsb s
  refine ⟨?zero, fun h1 h => ?capacity, fun h hv => ?overflow, fun h hlo hhi => ?fits, encode_of_width_and_lsb rfl rfl⟩
  case zero =>
    rintro rfl
    rw [exec_setSigned, respSetSigned_zero]
    rfl
  case capacity =>
    rw [exec_setSigned, respSetSigned_capacity _ _ h1 h]
    rfl
  case overflow =>
    rw [← smin_eq h.1 h.width_le, ← smax_eq h.1 h.width_le, ← s64_eq_toInt] at hv
    rw [exec_setSigned, respSetSigned_overflow _ h hv]
    rfl
  case fits =>
    have hfits : smin width ≤ s64 s.value ∧ s64 s.value ≤ smax width := by
      rw [smin_eq h.1 h.width_le, smax_eq h.1 h.width_le, s64_eq_toInt]
      exact ⟨hlo, hhi⟩
    refine ⟨insertField s.word width lsb s.value, ?_, rfl, and_umaxBits_toNat_of_fitsS h.1 h.width_le hlo hhi,
      fun p hp => insertField_getLsbD _ _ h hp⟩
    rw [exec_setSigned, respSetSigned_fits _ h hfits]
    rfl

/-! ### The values each accepts (R139) -/

theorem statusCode_eq_zero_iff (r : Response) : r.statusCode = 0 ↔ ∃ a, r = .ok a := by
  cases r <;> simp

theorem resultBits_of_statusCode_zero {r : Response} {b : Word} (hok : ∀ a, r = .ok a → a = b)
    (h : r.statusCode = 0) : r.resultBits = b := by
  obtain ⟨a, rfl⟩ := (statusCode_eq_zero_iff r).mp h
  exact hok a rfl

theorem respSetUnsigned_statusCode_eq_zero_iff (word v : Word) (width lsb : Nat) :
    (respSetUnsigned word width lsb v).statusCode = 0 ↔ ValidField width lsb ∧ v.toNat ≤ umax width := by
  rw [statusCode_eq_zero_iff]
  simp [respSetUnsigned_eq_ok_iff]

theorem respSetSigned_statusCode_eq_zero_iff (word v : Word) (width lsb : Nat) :
    (respSetSigned word width lsb v).statusCode = 0 ↔
      ValidField width lsb ∧ smin width ≤ s64 v ∧ s64 v ≤ smax width := by
  rw [statusCode_eq_zero_iff]
  simp [respSetSigned_eq_ok_iff]

/-- The values that fit signed, as unsigned patterns: the lowest 2^(w-1) and the highest 2^(w-1). -/
theorem fitsS_iff_toNat (v : Word) {w : Nat} (h1 : 1 ≤ w) (h2 : w ≤ 64) :
    (smin w ≤ s64 v ∧ s64 v ≤ smax w) ↔ v.toNat ≤ 2 ^ (w - 1) - 1 ∨ 2 ^ 64 - 2 ^ (w - 1) ≤ v.toNat := by
  have hpos : 0 < 2 ^ (w - 1) := Nat.two_pow_pos (w - 1)
  have hle : 2 ^ (w - 1) ≤ 2 ^ 63 := Nat.pow_le_pow_right (by decide) (by omega)
  have hcast : (2 : Int) ^ (w - 1) = ((2 ^ (w - 1) : Nat) : Int) := by norm_cast
  have hlt := v.isLt
  rw [smin_eq h1 h2, smax_eq h1 h2, s64_eq_toInt, BitVec.toInt_eq_toNat_cond, hcast]
  split <;> omega

/-- A number that `smax` bounds has bit 63 clear, so both readings give it. -/
theorem s64_of_toNat_le_smax {v : Word} {w : Nat} (hv : (v.toNat : Int) ≤ smax w) : s64 v = v.toNat := by
  have hlt : (v.toNat : Int) < 2 ^ 63 := hv.trans_lt (smax_range w).2
  rw [s64_eq_toInt]
  exact BitVec.toInt_eq_toNat_of_lt (by omega)

theorem fitsS_of_toNat_le_smax {v : Word} {w : Nat} (hv : (v.toNat : Int) ≤ smax w) :
    smin w ≤ s64 v ∧ s64 v ≤ smax w := by
  have hsmin : smin w ≤ 0 := smin_antitone (Nat.zero_le w)
  rw [s64_of_toNat_le_smax hv]
  exact ⟨by omega, hv⟩

/-- The unsigned range of `w` bits is twice the non-negative half of the signed one. -/
theorem umax_eq_two_mul_smax_add_one {w : Nat} (h1 : 1 ≤ w) (h2 : w ≤ 64) : (umax w : Int) = 2 * smax w + 1 := by
  have hpow : (2 : Int) ^ w = 2 ^ (w - 1) * 2 := by rw [← pow_succ, Nat.sub_add_cancel h1]
  rw [umax_eq h2, smax_eq h1 h2]
  push_cast [Nat.two_pow_pos w]
  omega

theorem fitsU_of_toNat_le_smax {v : Word} {w : Nat} (h1 : 1 ≤ w) (h2 : w ≤ 64) (hv : (v.toNat : Int) ≤ smax w) :
    v.toNat ≤ umax w := by
  have humax := umax_eq_two_mul_smax_add_one h1 h2
  omega

/-- Settles O41: `smax` bounds values that both operations accept, each builds `insertField` from whatever it accepts, and the
accepted patterns are those of the two fit tests. -/
theorem insertionsAgreeOnWhatBothAccept : Obligations.InsertionsAgreeOnWhatBothAccept := by
  intro width lsb s h
  refine ⟨fun hv => ?both, fun i hi => ?word,
    fun _ => ⟨⟨_, exec_setUnsigned .., ?unsigned⟩, ⟨_, exec_setSigned .., ?signed⟩⟩⟩
  case both =>
    have hu := fitsU_of_toNat_le_smax h.1 h.width_le hv
    have hs := fitsS_of_toNat_le_smax hv
    refine ⟨?_, (respFitsUnsigned_eq_ok_one_iff _ h.1 h.width_le).mpr hu,
      (respFitsSigned_eq_ok_one_iff _ h.1 h.width_le).mpr hs, ?_⟩
    · rw [exec_setUnsigned, exec_setSigned, respSetUnsigned_fits _ h hu, respSetSigned_fits _ h hs]
    · rw [← s64_eq_toInt, s64_of_toNat_le_smax hv]
  case word =>
    simp only [List.mem_cons, List.not_mem_nil, or_false] at hi
    rcases hi with rfl | rfl
    · refine ⟨_, exec_setUnsigned .., resultBits_of_statusCode_zero fun a ha => ?_⟩
      obtain ⟨-, -, hword⟩ := respSetUnsigned_eq_ok_iff.mp ha
      exact hword
    · refine ⟨_, exec_setSigned .., resultBits_of_statusCode_zero fun a ha => ?_⟩
      obtain ⟨-, -, hword⟩ := respSetSigned_eq_ok_iff.mp ha
      exact hword
  case unsigned =>
    rw [putResponse_status, respSetUnsigned_statusCode_eq_zero_iff, and_iff_right h, umax_eq h.width_le]
  case signed =>
    rw [putResponse_status, respSetSigned_statusCode_eq_zero_iff, and_iff_right h, fitsS_iff_toNat _ h.1 h.width_le]

end Sys2Proof.Machine
end

section
/-! Determinism (44_laws.md R167) and the identities of the extremal functions (R166). -/

namespace Sys2Proof.Machine

/-- The request and the response fill all eight ports. -/
theorem putResponse_eq_of_request_eq {s t : State} (h : s.request = t.request) (r : Response) :
    s.putResponse r = t.putResponse r :=
  (putResponse_eq_iff s r _).mpr ⟨h, rfl, rfl, rfl⟩

/-- Settles O10: a step puts `respond` of the request on the ports, so the request decides all eight of them. -/
theorem sameRequestSameResponse : Obligations.SameRequestSameResponse := by
  intro s t h
  refine ⟨_, step_eq_next_respond s, ?_⟩
  rw [step_eq_next_respond t, ← h, putResponse_eq_of_request_eq h]

/-- The patterns of the signed extremes are a low mask and its complement. -/
theorem enc64_smin_eq_not_enc64_smax {w : Nat} (h : 1 ≤ w) : enc64 (smin w) = ~~~ enc64 (smax w) := by
  rw [enc64_smin_eq_signmask h, enc64_smax_eq_ones h, signmask]

/-- Settles O31: the third identity follows from the first two, and all three functions are monotonic at every width. -/
theorem extremalIdentities : Obligations.ExtremalIdentities := by
  refine ⟨fun w h1 h2 => ?identities,
    fun w1 w2 _ h12 _ => ⟨umax_monotone h12, smax_monotone h12, smin_antitone h12⟩, ?zero⟩
  case identities =>
    have hsmin := smin_eq_neg_smax_sub_one w
    have humax := umax_eq_two_mul_smax_add_one h1 h2
    exact ⟨hsmin, humax, by omega, enc64_smin_eq_not_enc64_smax h1⟩
  case zero => decide

end Sys2Proof.Machine
end

section
/-! How extractions and insertions undo, keep and overwrite each other's fields (44_laws.md R157 to R165): the algebra of
`insertField` and the extracted fields, whatever the operation's signedness. -/

namespace Sys2Proof.Machine

variable {w l : Nat}

/-! ### The bits in and out of the field -/

theorem insertField_getLsbD_inside (word v : Word) (h : ValidField w l) {p : Nat} (hp : p < w) :
    (insertField word w l v).getLsbD (l + p) = v.getLsbD p := by
  have hcap : w + l ≤ 64 := h.2
  rw [insertField_getLsbD word v h (by omega), if_pos (by omega), Nat.add_sub_cancel_left]

/-- R159, at every position: from 64 on neither word has a bit. -/
theorem insertField_getLsbD_outside (word v : Word) (h : ValidField w l) {p : Nat} (hp : p < l ∨ l + w ≤ p) :
    (insertField word w l v).getLsbD p = word.getLsbD p := by
  by_cases hlt : p < 64
  · rw [insertField_getLsbD word v h hlt, if_neg (by omega)]
  · rw [BitVec.getLsbD_of_ge _ _ (by omega), BitVec.getLsbD_of_ge _ _ (by omega)]

/-! ### Extracting what was inserted -/

theorem extractU_insertField (word v : Word) (h : ValidField w l) :
    extractU (insertField word w l v) w l = v &&& umaxBits w := by
  apply BitVec.eq_of_getLsbD_eq
  intro p hp
  rw [extractU_getLsbD _ h, BitVec.getLsbD_and, umaxBits_getLsbD]
  by_cases hin : p < w
  · simp [hin, hp, insertField_getLsbD_inside word v h hin]
  · simp [hin]

/-- Sign extension from `w` bits looks at no higher bit. -/
theorem sextw_and_umaxBits (v : Word) (h1 : 1 ≤ w) (h2 : w ≤ 64) : sextw (v &&& umaxBits w) w = sextw v w := by
  apply BitVec.eq_of_getLsbD_eq
  intro p hp
  have hin : min p (w - 1) < w := by omega
  have hlt : min p (w - 1) < 64 := by omega
  rw [sextw_getLsbD _ h1 h2 hp, sextw_getLsbD v h1 h2 hp, BitVec.getLsbD_and, umaxBits_getLsbD, decide_eq_true hin,
    decide_eq_true hlt, Bool.and_true, Bool.and_true]

theorem extractS_insertField (word v : Word) (h : ValidField w l) :
    extractS (insertField word w l v) w l = sextw v w := by
  rw [extractS_eq_sextw _ h, extractU_insertField word v h, sextw_and_umaxBits v h.1 h.width_le]

/-! ### Inserting what was extracted -/

theorem insertField_extractU (word : Word) (h : ValidField w l) : insertField word w l (extractU word w l) = word := by
  apply BitVec.eq_of_getLsbD_eq
  intro p hp
  rw [insertField_getLsbD word _ h hp]
  split
  case isTrue hin => simp [extractU_getLsbD word h, hin, show p - l < w by omega]
  case isFalse => rfl

/-- An insertion uses the low `w` bits of the value and no other. -/
theorem insertField_and_umaxBits (word v : Word) (w l : Nat) :
    insertField word w l (v &&& umaxBits w) = insertField word w l v := by
  rw [insertField, insertField, BitVec.and_assoc, BitVec.and_self]

theorem insertField_extractS (word : Word) (h : ValidField w l) : insertField word w l (extractS word w l) = word := by
  rw [← insertField_and_umaxBits, extractS_and_umaxBits word h, insertField_extractU word h]

/-! ### Extracted values fit (R160) -/

theorem extractU_le_umax (word : Word) (h : ValidField w l) : (extractU word w l).toNat ≤ umax w :=
  (le_umax_iff_lt _ h.width_le).mpr (extractU_toNat_lt word h)

theorem sextw_sextw (v : Word) (h1 : 1 ≤ w) (h2 : w ≤ 64) : sextw (sextw v w) w = sextw v w := by
  apply BitVec.eq_of_getLsbD_eq
  intro p hp
  rw [sextw_getLsbD _ h1 h2 hp, sextw_getLsbD v h1 h2 (by omega), sextw_getLsbD v h1 h2 hp, Nat.min_assoc, Nat.min_self]

theorem extractS_fitsS (word : Word) (h : ValidField w l) :
    smin w ≤ s64 (extractS word w l) ∧ s64 (extractS word w l) ≤ smax w := by
  rw [← fitsS_iff_sextw _ h.1 h.width_le, extractS_eq_sextw word h, sextw_sextw _ h.1 h.width_le]

/-! ### The whole word as one field (R161) -/

theorem validField_word : ValidField 64 0 := by decide

theorem extractU_word (word : Word) : extractU word 64 0 = word := by
  have hreinserted := insertField_extractU word validField_word
  rwa [insertField_word _ _ validField_word] at hreinserted

theorem extractS_word (word : Word) : extractS word 64 0 = word := by
  rw [extractS_eq_sextw word validField_word, extractU_word, sextw_word]

theorem le_umax_word (v : Word) : v.toNat ≤ umax 64 := (le_umax_iff_lt _ le_rfl).mpr v.isLt

theorem fitsS_word (v : Word) : smin 64 ≤ s64 v ∧ s64 v ≤ smax 64 :=
  (fitsS_iff_sextw v (by decide) le_rfl).mp (sextw_word v)

/-! ### Two insertions (R163, R165) -/

theorem insertField_insertField_same (word v1 v2 : Word) (h : ValidField w l) :
    insertField (insertField word w l v1) w l v2 = insertField word w l v2 := by
  apply BitVec.eq_of_getLsbD_eq
  intro p hp
  rw [insertField_getLsbD _ v2 h hp, insertField_getLsbD word v2 h hp]
  split
  case isTrue => rfl
  case isFalse hout => exact insertField_getLsbD_outside word v1 h (by omega)

theorem extractU_insertField_of_disjoint (word v : Word) {w1 l1 w2 l2 : Nat} (h1 : ValidField w1 l1)
    (h2 : ValidField w2 l2) (hd : l1 + w1 ≤ l2 ∨ l2 + w2 ≤ l1) :
    extractU (insertField word w1 l1 v) w2 l2 = extractU word w2 l2 := by
  apply BitVec.eq_of_getLsbD_eq
  intro p _
  rw [extractU_getLsbD _ h2, extractU_getLsbD word h2]
  by_cases hin : p < w2
  · rw [insertField_getLsbD_outside word v h1 (by omega)]
  · simp [hin]

theorem insertField_comm_of_disjoint (word v1 v2 : Word) {w1 l1 w2 l2 : Nat} (h1 : ValidField w1 l1)
    (h2 : ValidField w2 l2) (hd : l1 + w1 ≤ l2 ∨ l2 + w2 ≤ l1) :
    insertField (insertField word w1 l1 v1) w2 l2 v2 = insertField (insertField word w2 l2 v2) w1 l1 v1 := by
  apply BitVec.eq_of_getLsbD_eq
  intro p hp
  simp only [insertField_getLsbD _ _ h1 hp, insertField_getLsbD _ _ h2 hp]
  by_cases hin : l1 ≤ p ∧ p < l1 + w1
  · have hout : ¬ (l2 ≤ p ∧ p < l2 + w2) := by omega
    rw [if_neg hout, if_pos hin, if_pos hin]
  · rw [if_neg hin, if_neg hin]

end Sys2Proof.Machine
end

section
/-! The operations of either signedness, as one: what the laws of 44_laws.md say of "every insertion" and "every
extraction". -/

namespace Sys2Proof.Machine

/-! ### Insertions -/

variable {set : Word → Nat → Nat → Word → Response}

/-- The two insertions differ in the values that they accept and in nothing else. -/
theorem insertion_eq_ok_iff (hset : set ∈ [respSetUnsigned, respSetSigned]) :
    ∃ fits : Nat → Word → Prop, ∀ {word v a : Word} {w l : Nat},
      set word w l v = .ok a ↔ ValidField w l ∧ fits w v ∧ a = insertField word w l v := by
  rcases List.mem_pair.mp hset with rfl | rfl
  · exact ⟨fun w v => v.toNat ≤ umax w, respSetUnsigned_eq_ok_iff⟩
  · exact ⟨fun w v => smin w ≤ s64 v ∧ s64 v ≤ smax w, respSetSigned_eq_ok_iff⟩

theorem insertField_of_insertion_ok (hset : set ∈ [respSetUnsigned, respSetSigned]) {word v a : Word} {w l : Nat}
    (h : set word w l v = .ok a) : ValidField w l ∧ a = insertField word w l v := by
  obtain ⟨fits, hiff⟩ := insertion_eq_ok_iff hset
  obtain ⟨hfield, -, hbuilt⟩ := hiff.mp h
  exact ⟨hfield, hbuilt⟩

/-- Whether an insertion succeeds does not depend on the word. -/
theorem insertion_ok_of_ok (hset : set ∈ [respSetUnsigned, respSetSigned]) {word v a : Word} {w l : Nat}
    (h : set word w l v = .ok a) (word' : Word) : set word' w l v = .ok (insertField word' w l v) := by
  obtain ⟨fits, hiff⟩ := insertion_eq_ok_iff hset
  obtain ⟨hfield, hfits, -⟩ := hiff.mp h
  exact hiff.mpr ⟨hfield, hfits, rfl⟩

/-- An insertion's answer, failures included, shows no more of the word than what is built from it. -/
theorem insertion_eq_of_insertField_eq (hset : set ∈ [respSetUnsigned, respSetSigned]) {word word' v : Word} {w l : Nat}
    (h : insertField word w l v = insertField word' w l v) : set word w l v = set word' w l v := by
  rcases List.mem_pair.mp hset with rfl | rfl
  · rw [respSetUnsigned, respSetUnsigned, h]
  · rw [respSetSigned, respSetSigned, h]

theorem exec_insertion {i : Instr} {width lsb : Nat} (hi : i ∈ [Instr.setUnsigned width lsb, .setSigned width lsb])
    (s : State) : ∃ set ∈ [respSetUnsigned, respSetSigned],
      exec i s = .next (s.putResponse (set s.word width lsb s.value)) := by
  rcases List.mem_pair.mp hi with rfl | rfl
  · exact ⟨_, List.mem_pair.mpr (.inl rfl), exec_setUnsigned ..⟩
  · exact ⟨_, List.mem_pair.mpr (.inr rfl), exec_setSigned ..⟩

/-! ### Extractions -/

/-- The signed extraction is a function of the unsigned one, so both are functions of the field. -/
theorem extraction_eq_of_extractU_eq {get : Word → Nat → Nat → Response} (hget : get ∈ [respGetUnsigned, respGetSigned])
    {word word' : Word} {w l : Nat} (h : ValidField w l) (hfield : extractU word w l = extractU word' w l) :
    get word w l = get word' w l := by
  rcases List.mem_pair.mp hget with rfl | rfl
  · rw [respGetUnsigned_valid _ h, respGetUnsigned_valid _ h, hfield]
  · rw [respGetSigned_valid _ h, respGetSigned_valid _ h, extractS_eq_sextw _ h, extractS_eq_sextw _ h, hfield]

/-! ### The next state where the value fits -/

variable (s : State) {width lsb : Nat}

theorem exec_setUnsigned_fits (h : ValidField width lsb) (hv : s.value.toNat ≤ umax width) :
    exec (.setUnsigned width lsb) s = .next (s.putResponse (.ok (insertField s.word width lsb s.value))) := by
  rw [exec_setUnsigned, respSetUnsigned_fits _ h hv]

theorem exec_setSigned_fits (h : ValidField width lsb) (hv : smin width ≤ s64 s.value ∧ s64 s.value ≤ smax width) :
    exec (.setSigned width lsb) s = .next (s.putResponse (.ok (insertField s.word width lsb s.value))) := by
  rw [exec_setSigned, respSetSigned_fits _ h hv]

theorem exec_fitsUnsigned_fits (h1 : 1 ≤ width) (h2 : width ≤ 64) (hv : s.value.toNat ≤ umax width) :
    exec (.fitsUnsigned width) s = .next (s.putResponse (.ok 1)) := by
  rw [exec_fitsUnsigned, (respFitsUnsigned_eq_ok_one_iff _ h1 h2).mpr hv]

theorem exec_fitsSigned_fits (h1 : 1 ≤ width) (h2 : width ≤ 64)
    (hv : smin width ≤ s64 s.value ∧ s64 s.value ≤ smax width) :
    exec (.fitsSigned width) s = .next (s.putResponse (.ok 1)) := by
  rw [exec_fitsSigned, (respFitsSigned_eq_ok_one_iff _ h1 h2).mpr hv]

end Sys2Proof.Machine
end

section
/-! The laws over two requests (44_laws.md R157 to R165): the second request gets the first one's result on a port. -/

namespace Sys2Proof.Machine

/-! ### One field, written and read -/

/-- Settles O42: the extraction gives the low `width` bits of the value, and a value that fits has no other. -/
theorem unsignedRoundTrip : Obligations.UnsignedRoundTrip := by
  intro width lsb s h hv
  rw [respFitsUnsigned_eq_ok_one_iff _ h.1 h.width_le] at hv
  refine ⟨_, _, exec_setUnsigned_fits s h hv, rfl, exec_getUnsigned_valid _ h, rfl, ?_⟩
  calc extractU (insertField s.word width lsb s.value) width lsb
      = s.value &&& umaxBits width := extractU_insertField _ _ h
    _ = s.value := and_umaxBits_of_lt h.width_le ((le_umax_iff_lt _ h.width_le).mp hv)

/-- Settles O43: the extraction gives the value sign-extended from `width` bits, and a value that fits is its own
extension. -/
theorem signedRoundTrip : Obligations.SignedRoundTrip := by
  intro width lsb s h hv
  rw [respFitsSigned_eq_ok_one_iff _ h.1 h.width_le] at hv
  refine ⟨_, _, exec_setSigned_fits s h hv, rfl, exec_getSigned_valid _ h, rfl, ?_⟩
  calc extractS (insertField s.word width lsb s.value) width lsb
      = sextw s.value width := extractS_insertField _ _ h
    _ = s.value := (fitsS_iff_sextw _ h.1 h.width_le).mpr hv

/-- Settles O44: an insertion that succeeds has a valid descriptor and gives `insertField`. -/
theorem bitsOutsideTheFieldAreUnchanged : Obligations.BitsOutsideTheFieldAreUnchanged := by
  intro width lsb s i hi
  obtain ⟨set, hset, hexec⟩ := exec_insertion hi s
  refine ⟨_, hexec, fun hstatus p hp => ?_⟩
  obtain ⟨a, ha⟩ := (statusCode_eq_zero_iff _).mp hstatus
  obtain ⟨hfield, rfl⟩ := insertField_of_insertion_ok hset ha
  rw [putResponse_result, ha, resultBits_ok, insertField_getLsbD_outside _ _ hfield hp]

/-- Settles O45: the unsigned field is below 2^width, and the signed one is a sign extension from `width` bits. -/
theorem extractedValuesFitTheirWidth : Obligations.ExtractedValuesFitTheirWidth := by
  intro width lsb s h
  constructor
  · exact ⟨_, _, exec_getUnsigned_valid s h, rfl, exec_fitsUnsigned_fits _ h.1 h.width_le (extractU_le_umax _ h), rfl, rfl⟩
  · exact ⟨_, _, exec_getSigned_valid s h, rfl, exec_fitsSigned_fits _ h.1 h.width_le (extractS_fitsS _ h), rfl, rfl⟩

/-- Settles O46: every value fits 64 bits either way, and the field is the whole word. -/
theorem fullWordFieldIsTheWord : Obligations.FullWordFieldIsTheWord := by
  refine fun s => ⟨fun i hi => ?insertions, fun i hi => ?extractions⟩
  case insertions =>
    rcases List.mem_pair.mp hi with rfl | rfl
    · rw [exec_setUnsigned_fits s validField_word (le_umax_word _), insertField_word _ _ validField_word]
      rfl
    · rw [exec_setSigned_fits s validField_word (fitsS_word _), insertField_word _ _ validField_word]
      rfl
  case extractions =>
    rcases List.mem_pair.mp hi with rfl | rfl
    · rw [exec_getUnsigned_valid s validField_word, extractU_word]
      rfl
    · rw [exec_getSigned_valid s validField_word, extractS_word]
      rfl

/-- Settles O47: an extracted value fits its field, and inserting the field's own bits changes none. -/
theorem reinsertionIsTheIdentity : Obligations.ReinsertionIsTheIdentity := by
  intro width lsb s h
  constructor
  · exact ⟨_, _, exec_getUnsigned_valid s h, rfl, exec_setUnsigned_fits _ h (extractU_le_umax _ h), rfl,
      insertField_extractU s.word h⟩
  · exact ⟨_, _, exec_getSigned_valid s h, rfl, exec_setSigned_fits _ h (extractS_fitsS _ h), rfl,
      insertField_extractS s.word h⟩

/-! ### Two insertions -/

/-- Settles O48: each insertion works on its own field's bits, so the other field is read as before and the order of the two
does not show. -/
theorem disjointFieldsAreIndependent : Obligations.DisjointFieldsAreIndependent := by
  intro w1 l1 w2 l2 word h1 h2 hd set1 hset1 v1 a ha
  obtain ⟨-, rfl⟩ := insertField_of_insertion_ok hset1 ha
  refine ⟨fun get hget => ?reads, fun set2 hset2 v2 b hb => ?commutes⟩
  case reads => exact extraction_eq_of_extractU_eq hget h2 (extractU_insertField_of_disjoint word v1 h1 h2 hd)
  case commutes =>
    obtain ⟨-, rfl⟩ := insertField_of_insertion_ok hset2 hb
    refine ⟨insertField word w2 l2 v2, insertion_ok_of_ok hset2 hb word, ?_⟩
    rw [insertion_ok_of_ok hset1 ha, insertField_comm_of_disjoint word v1 v2 h1 h2 hd]

/-- Settles O49: the second insertion builds the same word over the first one's result, and an insertion that succeeds always
builds `insertField` of the word it is given. -/
theorem lastInsertionWins : Obligations.LastInsertionWins := by
  intro w l word v1 v2 a set1 hset1 set2 hset2 ha
  obtain ⟨hfield, rfl⟩ := insertField_of_insertion_ok hset1 ha
  refine ⟨insertion_eq_of_insertField_eq hset2 (insertField_insertField_same word v1 v2 hfield), fun w' l' b hb => ?_⟩
  obtain ⟨-, hbuilt⟩ := insertField_of_insertion_ok hset2 hb
  exact hbuilt

end Sys2Proof.Machine
end

section
/-! The error classes (60_exceptions.md R175 to R187): every answer as the fatal event that a request meets, OVERFLOW behind it,
and a result where there is neither. -/

namespace Sys2Proof.Machine

variable {s : State}

/-! ### The fatal event of the request on the ports (R179 to R182) -/

/-- The first of the three fatal events that holds, in the order of R187. -/
def State.fatalEvent (s : State) : Option FatalCause :=
  if 9 ≤ s.op.toNat then some .illegalOp
  else if NeedsWidth s.op ∧ s.width = 0 then some .widthZero
  else if ExceedsCapacity s then some .capacity
  else none

theorem fatalEvent_of_fitPredicate (h : s.op = 0 ∨ s.op = 1) : s.fatalEvent = fitFault s.width.toNat := by
  rcases h with h | h <;> simp [State.fatalEvent, fitFault, NeedsWidth, ExceedsCapacity, h, ← BitVec.toNat_inj]

theorem fatalEvent_of_extremal (h : s.op = 2 ∨ s.op = 3 ∨ s.op = 4) : s.fatalEvent = none := by
  rcases h with h | h | h <;> simp [State.fatalEvent, NeedsWidth, ExceedsCapacity, h]

theorem fatalEvent_of_fieldOp (h : s.op = 5 ∨ s.op = 6 ∨ s.op = 7 ∨ s.op = 8) :
    s.fatalEvent = fieldFault s.width.toNat s.lsb.toNat := by
  rcases h with h | h | h | h <;>
    simp [State.fatalEvent, fieldFault, NeedsWidth, ExceedsCapacity, h, ← BitVec.toNat_inj]

theorem fatalEvent_of_reserved (h : 9 ≤ s.op.toNat) : s.fatalEvent = some .illegalOp := if_pos h

theorem fatalEvent_ne_none_iff :
    s.fatalEvent ≠ none ↔ 9 ≤ s.op.toNat ∨ NeedsWidth s.op ∧ s.width = 0 ∨ ExceedsCapacity s := by
  unfold State.fatalEvent
  split_ifs with hop hwidth hcap
  · exact iff_of_true nofun (.inl hop)
  · exact iff_of_true nofun (.inr (.inl hwidth))
  · exact iff_of_true nofun (.inr (.inr hcap))
  · exact iff_of_false (not_not_intro rfl) (not_or.mpr ⟨hop, not_or.mpr ⟨hwidth, hcap⟩⟩)

/-! ### Every answer in R187's order -/

/-- The value of an insertion does not fit its width (R177), in the extremal functions of R137 and R138. -/
abbrev State.ValueMisfits (s : State) : Prop :=
  (s.op = 7 ∧ umax s.width.toNat < s.value.toNat) ∨
    (s.op = 8 ∧ (s64 s.value < smin s.width.toNat ∨ smax s.width.toNat < s64 s.value))

/-- The operations by the check in front of them: the fit predicates, the extremal values, the fields, the reserved codes. -/
theorem op_classes (op : BitVec 4) : (op = 0 ∨ op = 1) ∨ (op = 2 ∨ op = 3 ∨ op = 4) ∨
    (op = 5 ∨ op = 6 ∨ op = 7 ∨ op = 8) ∨ 9 ≤ op.toNat := by
  revert op
  decide

/-- The fatal event is the whole answer; behind it a misfitting value is, and only then a result. -/
theorem respond_eq_guarded (s : State) :
    ∃ a, respond s.request = guarded s.fatalEvent (if s.ValueMisfits then .overflow else .ok a) := by
  rcases op_classes s.op with h | h | h | h
  case inl =>
    rw [fatalEvent_of_fitPredicate h]
    rcases h with h | h
    · exact ⟨zext64 (fitsS s.value s.width.toNat), by simp [respond, respFitsSigned, State.ValueMisfits, h]⟩
    · exact ⟨zext64 (fitsU s.value s.width.toNat), by simp [respond, respFitsUnsigned, State.ValueMisfits, h]⟩
  case inr.inl =>
    rw [fatalEvent_of_extremal h]
    rcases h with h | h | h
    · exact ⟨umaxBits s.width.toNat, by simp [respond, respUnsignedMax, h]⟩
    · exact ⟨enc64 (smax s.width.toNat), by simp [respond, respSignedMax, h]⟩
    · exact ⟨enc64 (smin s.width.toNat), by simp [respond, respSignedMin, h]⟩
  case inr.inr.inl =>
    rw [fatalEvent_of_fieldOp h]
    rcases h with h | h | h | h
    · exact ⟨extractU s.word s.width.toNat s.lsb.toNat, by simp [respond, respGetUnsigned, State.ValueMisfits, h]⟩
    · exact ⟨extractS s.word s.width.toNat s.lsb.toNat, by simp [respond, respGetSigned, State.ValueMisfits, h]⟩
    · exact ⟨insertField s.word s.width.toNat s.lsb.toNat s.value, by simp [respond, respSetUnsigned, State.ValueMisfits, h]⟩
    · exact ⟨insertField s.word s.width.toNat s.lsb.toNat s.value, by simp [respond, respSetSigned, State.ValueMisfits, h]⟩
  case inr.inr.inr =>
    rw [fatalEvent_of_reserved h, respond_of_reserved h]
    exact ⟨0, rfl⟩

/-- Everything `respond` can answer, and when. -/
theorem respond_cases (s : State) :
    (∃ c, s.fatalEvent = some c ∧ respond s.request = .fatal c) ∨
    (s.fatalEvent = none ∧ s.ValueMisfits ∧ respond s.request = .overflow) ∨
    (s.fatalEvent = none ∧ ¬ s.ValueMisfits ∧ ∃ a, respond s.request = .ok a) := by
  obtain ⟨a, h⟩ := respond_eq_guarded s
  rw [h]
  cases s.fatalEvent with
  | some c => exact .inl ⟨c, rfl, rfl⟩
  | none =>
    split_ifs with hmisfit
    · exact .inr (.inl ⟨rfl, hmisfit, rfl⟩)
    · exact .inr (.inr ⟨rfl, hmisfit, a, rfl⟩)

theorem respond_statusCode_eq_one_iff :
    (respond s.request).statusCode = 1 ↔ s.fatalEvent = none ∧ s.ValueMisfits := by
  rcases respond_cases s with ⟨c, hevent, hr⟩ | ⟨hevent, hmisfit, hr⟩ | ⟨hevent, hmisfit, a, hr⟩
  · simp [hevent, hr]
  · simp only [hevent, hr, hmisfit, statusCode_overflow, and_self]
  · simp [hr, hmisfit]

theorem respond_statusCode_eq_two_iff : (respond s.request).statusCode = 2 ↔ s.fatalEvent ≠ none := by
  rcases respond_cases s with ⟨c, hevent, hr⟩ | ⟨hevent, -, hr⟩ | ⟨hevent, -, a, hr⟩ <;> simp [hevent, hr]

theorem respond_causeCode (s : State) : (respond s.request).causeCode = s.fatalEvent.elim 0 FatalCause.code := by
  rcases respond_cases s with ⟨c, hevent, hr⟩ | ⟨hevent, -, hr⟩ | ⟨hevent, -, a, hr⟩ <;> simp [hevent, hr]

/-- Settles O20: the status and the cause after a step are those of the fatal event. -/
theorem fatalEventsAndTheirPrecedence : Obligations.FatalEventsAndTheirPrecedence := by
  intro s t h
  rw [step_eq_next_respond] at h
  cases h
  refine ⟨?status, ?cause⟩
  case status => rw [putResponse_status, respond_statusCode_eq_two_iff, fatalEvent_ne_none_iff]
  case cause =>
    rw [putResponse_cause, respond_causeCode, State.fatalEvent]
    split_ifs <;> rfl

/-! ### OVERFLOW (R177) -/

/-- On a valid descriptor the misfits of R177 are those of the ranges written out in powers of two. -/
theorem valueMisfits_iff_out_of_range (hop : IsInsertion s.op) (h : ValidField s.width.toNat s.lsb.toNat) :
    s.ValueMisfits ↔
      (s.op = 7 → 2 ^ s.width.toNat ≤ s.value.toNat) ∧
      (s.op = 8 → s.value.toInt < -2 ^ (s.width.toNat - 1) ∨ 2 ^ (s.width.toNat - 1) ≤ s.value.toInt) := by
  rcases hop with hop | hop
  · have hrange : umax s.width.toNat < s.value.toNat ↔ 2 ^ s.width.toNat ≤ s.value.toNat := by
      rw [← not_le, le_umax_iff_lt _ h.width_le, not_lt]
    simp [State.ValueMisfits, hop, hrange]
  · simp [State.ValueMisfits, hop, smin_eq h.1 h.width_le, smax_eq h.1 h.width_le, s64_eq_toInt]

/-- Settles O19: a misfit is reported where no fatal event is, which for an insertion is on a valid descriptor; and the next
request is presented over all that the failed one left. -/
theorem overflowExactlyWhenAValueDoesNotFit : Obligations.OverflowExactlyWhenAValueDoesNotFit := by
  intro s t h
  rw [step_eq_next_respond] at h
  cases h
  refine ⟨?status, fun _ r => ?next⟩
  case next => rw [step_present, step_present, present_putResponse_of_any _ s]
  case status =>
    rw [putResponse_status, respond_statusCode_eq_one_iff]
    have hop : s.ValueMisfits → IsInsertion s.op := Or.imp And.left And.left
    have hevent : IsInsertion s.op → (s.fatalEvent = none ↔ ValidField s.width.toNat s.lsb.toNat) := fun hi => by
      rw [fatalEvent_of_fieldOp (.inr (.inr hi)), fieldFault_eq_none_iff]
    constructor
    · rintro ⟨hnone, hmisfit⟩
      have hfield := (hevent (hop hmisfit)).mp hnone
      exact ⟨hop hmisfit, hfield, (valueMisfits_iff_out_of_range (hop hmisfit) hfield).mp hmisfit⟩
    · rintro ⟨hi, hfield, hrange⟩
      exact ⟨(hevent hi).mpr hfield, (valueMisfits_iff_out_of_range hi hfield).mpr hrange⟩

end Sys2Proof.Machine
end

section
/-! A host's run (60_exceptions.md R186, 70_reset_and_hazards.md R207): what one script step does, and a script cut in two. -/

namespace Sys2Proof.Machine

/-! ### One step of a script -/

/-- The block after a script step has driven `q` on it and been answered. -/
def State.served (unit : State) (q : Request) : State := (unit.present q).putResponse (respond q)

@[simp] theorem served_request (unit : State) (q : Request) : (unit.served q).request = q := rfl

@[simp] theorem served_sample (unit : State) (q : Request) : (unit.served q).sample = some (respond q) :=
  putResponse_sample ..

theorem served_settled (unit : State) (q : Request) : (unit.served q).Settled :=
  putResponse_respond_settled (unit.present q)

theorem issue_eq_next (c : Ctl) (w v : Word) (unit : State) :
    issue c w v unit = .next (unit.served ⟨ctlOp c, ctlWidth c, ctlLsb c, w, v⟩) :=
  step_present ..

/-- A script step whose operands are bound issues its request and binds the answer. -/
theorem hostStep_of_operands {st : ScriptStep} {h : HostRun} {w v : Word}
    (hw : readOperand h.bindings st.word = some w) (hv : readOperand h.bindings st.value = some v) :
    hostStep st h = bindResponse h (h.unit.served ⟨ctlOp st.ctl, ctlWidth st.ctl, ctlLsb st.ctl, w, v⟩) := by
  simp only [hostStep, hw, hv, issue_eq_next]

/-- Settles O50: the host samples what the block put there, `respond` of the request. -/
theorem hostBindsOkAndFaultsOnFatal : Obligations.HostBindsOkAndFaultsOnFatal := by
  intro st h w v hw hv
  refine ⟨_, served_request .., served_settled h.unit _, ?_⟩
  rw [hostStep_of_operands hw hv, bindResponse, served_sample, served_request]
  cases respond ⟨ctlOp st.ctl, ctlWidth st.ctl, ctlLsb st.ctl, w, v⟩ <;> rfl

/-! ### A script cut in two -/

theorem runScript_append (first more : List ScriptStep) (h : HostRun) :
    runScript (first ++ more) h = continueRun more (runScript first h) := by
  induction first generalizing h with
  | nil => rfl
  | cons st rest ih =>
    rw [List.cons_append, runScript, runScript]
    cases hostStep st h with
    | next h' => exact ih h'
    | fault f => rfl
    | refused r => rfl

theorem continueRun_of_failed (more : List ScriptStep) {r : RunResult} {f : Fault} (h : r.ending = .failed f) :
    continueRun more r = r := by
  rw [continueRun, h]

/-- Settles O52: by induction on the first script, a step that does not continue ends both runs alike. -/
theorem continuingARunIsTheLongerRun : Obligations.ContinuingARunIsTheLongerRun := by
  intro first more h
  refine ⟨runScript_append first more h, fun f hfailed => ?_⟩
  rw [runScript_append, continueRun_of_failed more hfailed]

end Sys2Proof.Machine
end

section
/-! Where a host's run ends (70_reset_and_hazards.md R207), and what it keeps of the block's past (R200, R201, R204). -/

namespace Sys2Proof.Machine

/-! ### The three answers to a script step -/

/-- The request a script step issues once its operands are bound to `w` and `v` (95_test_vectors.md section 7). -/
abbrev ScriptStep.request (st : ScriptStep) (w v : Word) : Request :=
  ⟨ctlOp st.ctl, ctlWidth st.ctl, ctlLsb st.ctl, w, v⟩

section
variable {st : ScriptStep} {h : HostRun} {w v : Word}
  (hw : readOperand h.bindings st.word = some w) (hv : readOperand h.bindings st.value = some v)
include hw hv

theorem hostStep_of_ok {r : Word} (hr : respond (st.request w v) = .ok r) :
    hostStep st h = .next ⟨h.unit.served (st.request w v), h.bindings ++ [some r]⟩ := by
  rw [hostStep_of_operands hw hv, bindResponse, served_sample, hr]

theorem hostStep_of_overflow (hr : respond (st.request w v) = .overflow) :
    hostStep st h = .next ⟨h.unit.served (st.request w v), h.bindings ++ [none]⟩ := by
  rw [hostStep_of_operands hw hv, bindResponse, served_sample, hr]

theorem hostStep_of_fatal {c : FatalCause} (hr : respond (st.request w v) = .fatal c) :
    hostStep st h = .fault (.contractViolation c) := by
  rw [hostStep_of_operands hw hv, bindResponse, served_sample, hr]

end

theorem hostStep_of_unbound {st : ScriptStep} {h : HostRun}
    (hnone : readOperand h.bindings st.word = none ∨ readOperand h.bindings st.value = none) :
    hostStep st h = .refused (.unboundResult (h.bindings.length + 1)) := by
  rcases hnone with hw | hv
  · simp only [hostStep, hw]
  · cases hw : readOperand h.bindings st.word <;> simp only [hostStep, hw, hv]

/-- Everything a script step can do: go on with one more binding, fail at a FATAL response, or have no request. -/
theorem hostStep_cases (st : ScriptStep) (h : HostRun) :
    (∃ unit bound, hostStep st h = .next ⟨unit, h.bindings ++ [bound]⟩) ∨
    (∃ w v c, readOperand h.bindings st.word = some w ∧ readOperand h.bindings st.value = some v ∧
      respond (st.request w v) = .fatal c ∧ hostStep st h = .fault (.contractViolation c)) ∨
    ∃ e, hostStep st h = .refused e := by
  cases hw : readOperand h.bindings st.word with
  | none => exact .inr (.inr ⟨_, hostStep_of_unbound (.inl hw)⟩)
  | some w =>
    cases hv : readOperand h.bindings st.value with
    | none => exact .inr (.inr ⟨_, hostStep_of_unbound (.inr hv)⟩)
    | some v =>
      cases hr : respond (st.request w v) with
      | ok r => exact .inl ⟨_, _, hostStep_of_ok hw hv hr⟩
      | overflow => exact .inl ⟨_, _, hostStep_of_overflow hw hv hr⟩
      | fatal c => exact .inr (.inl ⟨w, v, c, rfl, rfl, hr, hostStep_of_fatal hw hv hr⟩)

/-! ### The run, by the answer to its first step -/

section
variable {st : ScriptStep} {rest : List ScriptStep} {h : HostRun}

theorem runScript_cons_of_next {h' : HostRun} (hstep : hostStep st h = .next h') :
    runScript (st :: rest) h = runScript rest h' := by
  rw [runScript, hstep]

theorem runScript_cons_of_fault {f : Fault} (hstep : hostStep st h = .fault f) :
    runScript (st :: rest) h = ⟨h, .failed f⟩ := by
  rw [runScript, hstep]

theorem runScript_cons_of_refused {e : Refusal} (hstep : hostStep st h = .refused e) :
    runScript (st :: rest) h = ⟨h, .refused e⟩ := by
  rw [runScript, hstep]

end

/-- A part that completes hands its host to what comes after it. -/
theorem runScript_append_of_completed {before more : List ScriptStep} {h h' : HostRun}
    (hbefore : runScript before h = ⟨h', .completed⟩) : runScript (before ++ more) h = runScript more h' := by
  rw [runScript_append, hbefore, continueRun]

theorem runScript_concat_of_next {before : List ScriptStep} {last : ScriptStep} {h h' h'' : HostRun}
    (hbefore : runScript before h = ⟨h', .completed⟩) (hstep : hostStep last h' = .next h'') :
    runScript (before ++ [last]) h = ⟨h'', .completed⟩ := by
  rw [runScript_append_of_completed hbefore, runScript_cons_of_next hstep, runScript]

/-! ### Where a run ends (R207) -/

/-- A completed run issued every request: each step bound one entry. -/
theorem bindings_length_of_completed {steps : List ScriptStep} {h : HostRun}
    (hend : (runScript steps h).ending = .completed) :
    (runScript steps h).host.bindings.length = h.bindings.length + steps.length := by
  induction steps generalizing h with
  | nil => rfl
  | cons st rest ih =>
    rcases hostStep_cases st h with ⟨unit, bound, hstep⟩ | ⟨w, v, c, -, -, -, hstep⟩ | ⟨e, hstep⟩
    · rw [runScript_cons_of_next hstep] at hend ⊢
      rw [ih hend, List.length_append, List.length_singleton, List.length_cons]
      omega
    · rw [runScript_cons_of_fault hstep] at hend
      cases hend
    · rw [runScript_cons_of_refused hstep] at hend
      cases hend

/-- A run fails exactly where a step faults after a part that completes, and keeps the host which that step found. -/
theorem runScript_eq_failed_iff {steps : List ScriptStep} {h h' : HostRun} {f : Fault} :
    runScript steps h = ⟨h', .failed f⟩ ↔ ∃ before last after, steps = before ++ last :: after ∧
      runScript before h = ⟨h', .completed⟩ ∧ hostStep last h' = .fault f := by
  constructor
  · intro hfailed
    induction steps generalizing h with
    | nil => cases hfailed
    | cons st rest ih =>
      cases hstep : hostStep st h with
      | next h₁ =>
        rw [runScript_cons_of_next hstep] at hfailed
        obtain ⟨before, last, after, rfl, hbefore, hlast⟩ := ih hfailed
        exact ⟨st :: before, last, after, rfl, (runScript_cons_of_next hstep).trans hbefore, hlast⟩
      | fault g =>
        rw [runScript_cons_of_fault hstep] at hfailed
        cases hfailed
        exact ⟨[], st, rest, rfl, rfl, hstep⟩
      | refused e =>
        rw [runScript_cons_of_refused hstep] at hfailed
        cases hfailed
  · rintro ⟨before, last, after, rfl, hbefore, hlast⟩
    rw [runScript_append_of_completed hbefore, runScript_cons_of_fault hlast]

/-- A script step faults at a FATAL response only (R186 (b)). -/
theorem fatal_of_hostStep_fault {st : ScriptStep} {h : HostRun} {f : Fault} (hf : hostStep st h = .fault f) :
    ∃ w v c, readOperand h.bindings st.word = some w ∧ readOperand h.bindings st.value = some v ∧
      respond (st.request w v) = .fatal c ∧ f = .contractViolation c := by
  rcases hostStep_cases st h with ⟨unit, bound, hstep⟩ | ⟨w, v, c, hw, hv, hr, hstep⟩ | ⟨e, hstep⟩
  · cases hstep.symm.trans hf
  · cases hstep.symm.trans hf
    exact ⟨w, v, c, hw, hv, hr, rfl⟩
  · cases hstep.symm.trans hf

/-- Settles O51: a run fails exactly at a faulting step after a completed part, and a step faults exactly at a FATAL
response. -/
theorem runEndsAtTheFirstFatal : Obligations.RunEndsAtTheFirstFatal := by
  intro steps h
  refine ⟨bindings_length_of_completed, fun f hfailed => ?failed, ?reached⟩
  case failed =>
    obtain ⟨before, last, after, hsteps, hbefore, hlast⟩ :=
      runScript_eq_failed_iff.mp (congrArg (RunResult.mk (runScript steps h).host) hfailed)
    obtain ⟨w, v, c, hw, hv, hr, hf⟩ := fatal_of_hostStep_fault hlast
    exact ⟨before, last, after, _, w, v, c, hsteps, hbefore, hw, hv, hr, hf, rfl⟩
  case reached =>
    intro before last after h' w v hsteps hbefore hw hv
    split
    next c hr =>
      rw [runScript_eq_failed_iff.mpr ⟨before, last, after, hsteps, hbefore, hostStep_of_fatal hw hv hr⟩]
      exact ⟨rfl, rfl⟩
    next r hr => exact ⟨_, runScript_concat_of_next hbefore (hostStep_of_ok hw hv hr)⟩
    next hr => exact ⟨_, runScript_concat_of_next hbefore (hostStep_of_overflow hw hv hr)⟩

/-! ### The block's past (R200, R201, R204) -/

/-- An answered request leaves nothing of what stood on the ports. -/
theorem served_eq_served (s t : State) (q : Request) : s.served q = t.served q :=
  present_putResponse_of_any s t q (respond q)

/-- A script step reads the bindings and wipes out the ports, so its outcome is the same on every block. -/
theorem hostStep_eq_of_bindings_eq (st : ScriptStep) {h k : HostRun} (hb : h.bindings = k.bindings) :
    hostStep st h = hostStep st k := by
  simp only [hostStep, issue_eq_next, bindResponse, hb, served_eq_served h.unit k.unit]

/-- Settles O53: the empty script binds nothing, and the first step of any other leaves nothing of the past. -/
theorem runDoesNotDependOnTheBlocksPast : Obligations.RunDoesNotDependOnTheBlocksPast := by
  intro steps s t
  cases steps with
  | nil => exact ⟨rfl, rfl⟩
  | cons st rest =>
    rw [runScript, runScript, hostStep_eq_of_bindings_eq st (h := startRun s) (k := startRun t) rfl]
    cases hostStep st (startRun t) with
    | next h' => exact ⟨rfl, rfl⟩
    | fault f => exact ⟨rfl, rfl⟩
    | refused e => exact ⟨rfl, rfl⟩

end Sys2Proof.Machine
end

section
/-! The opcode table against the decoder (30_encoding.md R68, R70): its sixteen rows are claimed by their operation code
alone, and the row of an instruction carries its mnemonic. -/

namespace Sys2Proof

/-- The row of the opcode table that stands at an operation code. -/
def rowAt (op : BitVec 4) : OpRow := opTable[op.toNat]'op.isLt

theorem rowAt_mem (op : BitVec 4) : rowAt op ∈ opTable := List.getElem_mem _

/-- The rows stand in the order of their codes. -/
theorem rowAt_pattern (op : BitVec 4) : (rowAt op).pattern.toNat = op.toNat := by
  revert op
  decide

theorem rowAt_mnemonic (i : Instr) : (rowAt (opcode i)).mnemonic = mnemonic i := by
  cases i <;> rfl

/-- No two rows have one pattern. -/
theorem row_eq_of_pattern_eq {row other : OpRow} (hrow : row ∈ opTable) (hother : other ∈ opTable)
    (h : other.pattern = row.pattern) : other = row :=
  have distinct : (opTable.map OpRow.pattern).Nodup := by decide
  List.inj_on_of_nodup_map distinct hother hrow h

/-- A control word is claimed by the row at its operation code (R68) and by no other. -/
theorem accepts_iff_eq_rowAt (c : Ctl) {row : OpRow} (hrow : row ∈ opTable) :
    row.accepts c = true ↔ row = rowAt (ctlOp c) := by
  rw [accepts_iff c row hrow, ← ctlOp_toNat, ← rowAt_pattern]
  constructor
  · intro h
    exact row_eq_of_pattern_eq (rowAt_mem _) hrow (BitVec.eq_of_toNat_eq h.symm)
  · rintro rfl
    rfl

/-- Settles O4: the one row that claims a control word is the row at its operation code, which is the code of the decoded
instruction. -/
theorem everyControlWordHasOneTableRow : Obligations.EveryControlWordHasOneTableRow := by
  intro c
  have hop : opcode (decode c) = ctlOp c := opcode_decodeFields ..
  refine ⟨rowAt (ctlOp c), rowAt_mem _, (accepts_iff_eq_rowAt c (rowAt_mem _)).mpr rfl, ?_, fun other hother => ?_⟩
  · rw [← hop, rowAt_mnemonic]
  · exact (accepts_iff_eq_rowAt c hother).mp

/-- Settles O5: the decoder evaluates on each of the twelve words. -/
theorem vectorControlWordsDecode : Obligations.VectorControlWordsDecode := by
  unfold Obligations.VectorControlWordsDecode
  decide

end Sys2Proof
end

section
/-! Where a run of the block starts (notes/assumptions/1.md and 2.md): a control word placed on the narrow ports, and the
ports at reset. -/

namespace Sys2Proof.Machine

/-! ### A placed control word -/

/-- Driving a control word on the three narrow ports puts that very word there (R62). -/
@[simp] theorem driveCtl_ctl (s : State) (c : Ctl) : (s.driveCtl c).ctl = c := assembleCtl_fields c

@[simp] theorem withFetchWord_ctl (s : State) (nbits w : Nat) :
    (s.withFetchWord nbits w).ctl = BitVec.ofNat 18 (w % 2 ^ nbits) := driveCtl_ctl ..

/-- The host's numbering decodes the numbers with no bit above `ctl[17]`, to what their control word stands for. -/
theorem decodeTableWord_eq_some_iff {nbits w : Nat} {i : Instr} :
    decodeTableWord nbits w = some i ↔ w % 2 ^ nbits < 2 ^ 18 ∧ decode (BitVec.ofNat 18 (w % 2 ^ nbits)) = i := by
  by_cases h : w % 2 ^ nbits < 2 ^ 18
  · rw [decodeTableWord, decodeWord, if_pos h]
    simp only [h, true_and, Option.some_inj]
  · rw [decodeTableWord, decodeWord, if_neg h]
    simp only [h, false_and, reduceCtorEq]

/-- Settles O8: the placed word stands on the narrow ports unchanged, being below 2^18, and a step runs what it decodes
to. -/
theorem placedControlWordRunsNext : Obligations.PlacedControlWordRunsNext := by
  intro s w i h
  obtain ⟨hlt, hdecode⟩ := decodeTableWord_eq_some_iff.mp h
  refine ⟨?_, ?_, driveCtl_word .., driveCtl_value .., driveCtl_status .., driveCtl_cause .., driveCtl_result ..⟩
  · rw [step, withFetchWord_ctl, hdecode]
  · rw [withFetchWord_ctl, BitVec.toNat_ofNat, Nat.mod_eq_of_lt hlt]

/-! ### The ports at reset -/

/-- The block answers the all-zero request with what already stands on the response ports: FATAL, WIDTH_ZERO (R179). -/
theorem step_reset : step State.reset = .next State.reset := rfl

/-- Settles O16: the reset state is its own next state, and every step leaves the invariant. -/
theorem resetMeetsThePortInvariant : Obligations.ResetMeetsThePortInvariant := inv_of_step step_reset

end Sys2Proof.Machine
end
